-- ==== Sys2Proof/Word.lean ====
section
/-! DEFINITION. The word types of spec/00_scope.md section 6, and the opaque bus transfer mode. -/

namespace Sys2Proof

/-- `U8`: a byte of the table, an opcode, an argument, a number of milliseconds. -/
abbrev Byte := BitVec 8

/-- `U16`: a window coordinate or size (30_encoding.md R81). -/
abbrev U16 := BitVec 16

/-- `S16`: an offset, held as its two's complement pattern `bits16` (10_state.md R27). -/
abbrev S16 := BitVec 16

/-- `U32`: a bus clock in hertz, or a packed window value (30_encoding.md R81, R83). -/
abbrev U32 := BitVec 32

/-- The type `Mode` of `TRANSFER_MODE` (00_scope.md R7): an opaque value the block passes on and never
inspects. DESIGN CHOICE (log entry 9, safe): it is a tag with no structure of its own. -/
structure Mode where
  tag : Nat
  deriving DecidableEq, Repr

end Sys2Proof
end

