-- ==== Sys2Proof/Config.lean ====
section
/-! DEFINITION. The implementation parameters of spec/00_scope.md R7 and R8. The FIXED ones are definitions.
The OPEN ones are the record `Params`, which the state carries so that every statement holds for every value of
them; `Config.params` is the one device whose reset state is `State.reset`, and its values are opaque. -/

namespace Sys2Proof

/-- The OPEN parameters of 00_scope.md R7 except `ROM`, which is the table memory of the state. -/
structure Params where
  /-- `ADDR_W`, the width in bits of a table memory address. -/
  addrW : Nat
  /-- `TABLE1_BASE`, the address of the header byte of the baseline table. -/
  table1Base : Nat
  /-- `TABLE2_BASE`, the address of the header byte of the second table. -/
  table2Base : Nat
  /-- `OPC_CASET`. -/
  opcCaset : Byte
  /-- `OPC_RASET`. -/
  opcRaset : Byte
  /-- `OPC_RAMWR`. -/
  opcRamwr : Byte
  /-- `OPC_MADCTL`. -/
  opcMadctl : Byte
  /-- `OPC_DISPON`. -/
  opcDispon : Byte
  /-- `OPC_DISPOFF`. -/
  opcDispoff : Byte
  /-- `OPC_TEON`. -/
  opcTeon : Byte
  /-- `OPC_TEOFF`. -/
  opcTeoff : Byte
  /-- `MADCTL_VALUE`. -/
  madctlValue : Byte
  /-- `DEFAULT_CLOCK_HZ`. -/
  defaultClockHz : U32
  /-- `TRANSFER_MODE`. -/
  transferMode : Mode
  deriving DecidableEq, Repr

/-- What R7 requires of the parameters: `ADDR_W` at least 1, the bases addresses of the table memory,
`DEFAULT_CLOCK_HZ` not zero. -/
abbrev Params.wf (p : Params) : Prop :=
  1 ≤ p.addrW ∧ p.table1Base < 2 ^ p.addrW ∧ p.table2Base < 2 ^ p.addrW ∧ p.defaultClockHz ≠ 0

/-- The eight opcodes are pairwise different. The spec does not require it: it is a premise of the statements that
read an emitted command back from its bytes, never a premise of what the block does. -/
abbrev Params.opcodesDistinct (p : Params) : Prop :=
  [p.opcCaset, p.opcRaset, p.opcRamwr, p.opcMadctl, p.opcDispon, p.opcDispoff, p.opcTeon, p.opcTeoff].Nodup

/-- `WIDTH`, the panel width in pixels (00_scope.md R8, 10_state.md R32). -/
def Config.width : Nat := 128

/-- `HEIGHT`, the panel height in pixels (00_scope.md R8, 10_state.md R32). -/
def Config.height : Nat := 160

/-- `ADDR_W` of the device of `State.reset`, less one (log entry 2): a width of at least 1 with nothing else assumed. -/
opaque Config.addrWLessOne : Nat

/-- `ADDR_W` of the device of `State.reset`. -/
def Config.addrW : Nat := Config.addrWLessOne + 1

/-- `ROM` of the device of `State.reset` (20_memory.md R51): a total function on `ADDR_W`-bit addresses of which
nothing is known (91_not_in_source.md N1, N11). -/
opaque Config.rom : BitVec Config.addrW → Byte

/-- `TABLE1_BASE` of the device of `State.reset`. -/
opaque Config.table1Base : BitVec Config.addrW

/-- `TABLE2_BASE` of the device of `State.reset`. -/
opaque Config.table2Base : BitVec Config.addrW

/-- `OPC_CASET` of the device of `State.reset`. -/
opaque Config.opcCaset : Byte

/-- `OPC_RASET` of the device of `State.reset`. -/
opaque Config.opcRaset : Byte

/-- `OPC_RAMWR` of the device of `State.reset`. -/
opaque Config.opcRamwr : Byte

/-- `OPC_MADCTL` of the device of `State.reset`. -/
opaque Config.opcMadctl : Byte

/-- `OPC_DISPON` of the device of `State.reset`. -/
opaque Config.opcDispon : Byte

/-- `OPC_DISPOFF` of the device of `State.reset`. -/
opaque Config.opcDispoff : Byte

/-- `OPC_TEON` of the device of `State.reset`. -/
opaque Config.opcTeon : Byte

/-- `OPC_TEOFF` of the device of `State.reset`. -/
opaque Config.opcTeoff : Byte

/-- `MADCTL_VALUE` of the device of `State.reset`. -/
opaque Config.madctlValue : Byte

/-- `DEFAULT_CLOCK_HZ` of the device of `State.reset`, less one: any 32-bit number but zero, with nothing else assumed. -/
opaque Config.defaultClockLessOne : Fin (4294967294 + 1)

/-- `TRANSFER_MODE` of the device of `State.reset`, its tag. -/
opaque Config.transferModeTag : Nat

/-- Free value: `tx_data[31:8]` of the `n`-th beat where its kind does not use them (42_dispatcher_primitives.md R167; log
entry 17). -/
opaque Config.txDataUnused : Nat → BitVec 24

/-- Free value: `tx_len` of the `n`-th beat where its kind does not use it (R167; log entry 17). -/
opaque Config.txLenUnused : Nat → BitVec 7

/-- Free value: the tag of `tx_mode` of the `n`-th beat where its kind does not use it (R167; log entry 17). -/
opaque Config.txModeUnused : Nat → Nat

/-- The parameters of the device of `State.reset`. -/
def Config.params : Params where
  addrW := Config.addrW
  table1Base := Config.table1Base.toNat
  table2Base := Config.table2Base.toNat
  opcCaset := Config.opcCaset
  opcRaset := Config.opcRaset
  opcRamwr := Config.opcRamwr
  opcMadctl := Config.opcMadctl
  opcDispon := Config.opcDispon
  opcDispoff := Config.opcDispoff
  opcTeon := Config.opcTeon
  opcTeoff := Config.opcTeoff
  madctlValue := Config.madctlValue
  defaultClockHz := BitVec.ofNat 32 (Config.defaultClockLessOne.val + 1)
  transferMode := ⟨Config.transferModeTag⟩

end Sys2Proof
end

