-- ==== Sys2Proof/Syntax.lean ====
section
/-! DEFINITION. The instructions: one constructor per row of spec/opcode_table.json. -/

namespace Sys2Proof

/-- The 24 rows of spec/opcode_table.json, in its order. -/
inductive Instr where
  /-- `COUNT n`, the header byte of a Command Table (40_table_records.md R101). -/
  | count (n : Byte)
  /-- `CMD op, [args]`, a record without delay (R102). -/
  | cmd (op : Byte) (args : List Byte)
  /-- `CMDD op, [args], ms`, a record with delay (R103). -/
  | cmdd (op : Byte) (args : List Byte) (ms : Byte)
  /-- `NOP`, the reserved operation code `0b000` (41_host_operations.md R136). -/
  | nop000
  /-- `INIT freq` (R131). -/
  | init (freq : U32)
  /-- `SET_WINDOW x, y, w, h` (R132). -/
  | setWindow (x y w h : U16)
  /-- `SET_OFFSETS col, row` (R133). -/
  | setOffsets (col row : S16)
  /-- `SET_DISPLAY en` (R134). -/
  | setDisplay (en : Bool)
  /-- `SET_TEARING en` (R135). -/
  | setTearing (en : Bool)
  /-- `NOP`, the reserved operation code `0b110` (R136). -/
  | nop110
  /-- `NOP`, the reserved operation code `0b111` (R136). -/
  | nop111
  /-- The column address set command with its start and end column (30_encoding.md R82, R83). -/
  | caset (xs xe : U16)
  /-- The row address set command with its start and end row (R82, R83). -/
  | raset (ys ye : U16)
  /-- The write to display RAM command (R82). -/
  | ramwr
  /-- The orientation and colour-order command, its argument `MADCTL_VALUE` (R82, R84). -/
  | madctl
  /-- The display-on command (R82). -/
  | dispon
  /-- The display-off command (R82). -/
  | dispoff
  /-- The tearing-on command (R82). -/
  | teon
  /-- The tearing-off command (R82). -/
  | teoff
  /-- `Configure(f, mode)` (42_dispatcher_primitives.md R164). -/
  | configure (f : U32) (mode : Mode)
  /-- `SendCommand(op, args)` (R160). -/
  | sendCommand (op : Byte) (args : List Byte)
  /-- `SendCommand0(op)` (R161). -/
  | sendCommand0 (op : Byte)
  /-- `Write32(v)`, which occurs only as `SendCommand32(op, v)`, after the command byte `op` (R162). -/
  | write32 (op : Byte) (v : U32)
  /-- `Delay(ms)` (R163). -/
  | delay (ms : Byte)
  deriving DecidableEq, Repr

end Sys2Proof
end

