-- ==== Sys2Proof/WellFormed.lean ====
section
/-! DEFINITION. The well-formed instructions: the operands an encoding has room for. -/

namespace Sys2Proof

/-- The largest argument count a 7-bit field holds (30_encoding.md R73; 42_dispatcher_primitives.md R160). -/
def maxArgs : Nat := 127

/-- An instruction has an encoding exactly when its argument list fits the 7-bit count of
30_encoding.md R73 (the records) or of the `tx_len` field of 42_dispatcher_primitives.md R167
(`SendCommand`). Every other operand is of a fixed width and always fits. -/
def Instr.wellFormed : Instr → Bool
  | .cmd _ args => args.length ≤ maxArgs
  | .cmdd _ args _ => args.length ≤ maxArgs
  | .sendCommand _ args => args.length ≤ maxArgs
  | .count _ | .nop000 | .init _ | .setWindow _ _ _ _ | .setOffsets _ _ | .setDisplay _ | .setTearing _ => true
  | .nop110 | .nop111 | .caset _ _ | .raset _ _ | .ramwr | .madctl | .dispon | .dispoff | .teon | .teoff => true
  | .configure _ _ | .sendCommand0 _ | .write32 _ _ | .delay _ => true

end Sys2Proof
end

