-- ==== Sys2Proof/Decode.lean ====
section
/-! DEFINITION. The encodings of spec/30_encoding.md and their decoder, then the encoder. The spec gives five encoded
forms: the header byte and the records of a Command Table (section 1), the host request (section 2), the bytes of a
command the block emits (section 3), and the beats of the transport channel (42_dispatcher_primitives.md R167). -/

namespace Sys2Proof

/-! ### The encoded forms -/

/-- A host request as its port fields (30_encoding.md R79, R81; 41_host_operations.md R141). -/
structure Request where
  /-- `req_op[2:0]`. -/
  op : BitVec 3
  /-- `req_x[15:0]`. -/
  x : U16
  /-- `req_y[15:0]`. -/
  y : U16
  /-- `req_w[15:0]`. -/
  w : U16
  /-- `req_h[15:0]`. -/
  h : U16
  /-- `req_freq[31:0]`. -/
  freq : U32
  /-- `req_en`. -/
  en : Bool
  deriving DecidableEq, Repr

/-- A command-record as the tuple `(op, args, delay)` of 30_encoding.md R70 and 40_table_records.md R110. -/
structure Record where
  op : Byte
  args : List Byte
  delay : Option Byte
  deriving DecidableEq, Repr

/-- A beat of the transport channel (42_dispatcher_primitives.md R167). -/
inductive Beat where
  /-- `CFG`, `tx_data = f`, `tx_mode = mode`. -/
  | cfg (f : U32) (mode : Mode)
  /-- `CMD`, `tx_data[7:0] = op`, `tx_len` the number of argument bytes: it opens a transaction. -/
  | cmd (op : Byte) (len : BitVec 7)
  /-- `DATA`, `tx_data[7:0]` one argument byte. -/
  | data (b : Byte)
  /-- `DELAY`, `tx_data[7:0] = ms`. -/
  | delay (ms : Byte)
  deriving DecidableEq, Repr

/-- An encoded instruction. Which form a piece of bits is read in follows from where it stands (R88): a table's base
address, a record of a table, the request channel, the serial bus, the transport channel. -/
inductive Code where
  /-- The byte at a table's base address (R71). -/
  | header (b : Byte)
  /-- The bytes of one record (R72). -/
  | record (bytes : List Byte)
  /-- A request on the host channel (R79, R81). -/
  | request (r : Request)
  /-- The bytes of a command the block emits, its opcode first (R82). -/
  | command (bytes : List Byte)
  /-- The beats of one primitive on the transport channel (42_dispatcher_primitives.md R167). -/
  | beats (bs : List Beat)
  deriving DecidableEq, Repr

/-- Why bits are no instruction. None of these is a behaviour of the block, which rejects nothing it reads (R77, R80):
they say that a list of bytes or beats taken out of its place is too short, too long or not one of the block's own. -/
inductive DecodeError where
  /-- Fewer bytes than the record's second byte announces (R88). -/
  | recordTooShort
  /-- Bytes left over after the record. -/
  | recordTooLong
  /-- A table without a header byte (R71). -/
  | noHeader
  /-- Bytes that are none of the eight commands of R82. -/
  | notAnOwnCommand
  /-- Beats that are not one whole primitive: a `DATA` beat outside a transaction, or a count of `DATA` beats that is
  not the `tx_len` of their `CMD` beat (42_dispatcher_primitives.md R167). -/
  | brokenBeats
  deriving DecidableEq, Repr

/-! ### Byte fields and byte order -/

/-- `argCount = spec & 0x7F` (30_encoding.md R73). -/
def argCount (spec : Byte) : Nat := (spec &&& 0x7F#8).toNat

/-- `D`: delay-present = `spec & 0x80 != 0` (R73). -/
def delayFollows (spec : Byte) : Bool := (spec &&& 0x80#8) != 0#8

/-- The arg-spec byte of a record (R70): 128 if a delay is present, plus the number of arguments. -/
def argSpec (nargs : Nat) (delay : Bool) : Byte := BitVec.ofNat 8 ((if delay then 128 else 0) + nargs)

/-- The length of a record, `2 + argCount + D` bytes, from its arg-spec byte (R74, R88). -/
def recordLength (spec : Byte) : Nat := 2 + argCount spec + (if delayFollows spec then 1 else 0)

/-- `be32(v) = [v[31:24], v[23:16], v[15:8], v[7:0]]` (00_scope.md section 6, 42_dispatcher_primitives.md R162). -/
def be32 (v : U32) : List Byte :=
  [v.extractLsb' 24 8, v.extractLsb' 16 8, v.extractLsb' 8 8, v.extractLsb' 0 8]

/-- The packed window value: the start in the high 16 bits, the end in the low 16 bits (30_encoding.md R83). -/
def packWindow (start stop : U16) : U32 := start ++ stop

/-! ### Command Tables -/

/-- The record that starts at offset 0 of a stream of bytes, read by position (30_encoding.md R72, R88; 40_table_records.md
R110). It is total: every byte is accepted in every position (R77). -/
def recordFrom (rd : Nat → Byte) : Record where
  op := rd 0
  args := (List.range (argCount (rd 1))).map fun i => rd (2 + i)
  delay := if delayFollows (rd 1) then some (rd (2 + argCount (rd 1))) else none

/-- The number of bytes a record occupies (R74). -/
def Record.size (r : Record) : Nat := 2 + r.args.length + (if r.delay.isSome then 1 else 0)

/-- The form a record is: `CMD` without a delay, `CMDD` with one (R78). -/
def Record.toInstr (r : Record) : Instr :=
  match r.delay with
  | none => .cmd r.op r.args
  | some ms => .cmdd r.op r.args ms

/-- The records `1 .. n` of the table whose bytes are `rd`, the next record at offset `off` (40_table_records.md R110). -/
def recordsFrom (rd : Nat → Byte) : Nat → Nat → List Record
  | 0, _ => []
  | n + 1, off =>
    let r := recordFrom fun k => rd (off + k)
    r :: recordsFrom rd n (off + r.size)

/-- `Decode` of R110 over a stream of bytes: the header byte says how many records follow. -/
def tableFrom (rd : Nat → Byte) : List Record := recordsFrom rd (rd 0).toNat 1

/-- The first record of a list of bytes, and the bytes after it. -/
def decodeRecord (bytes : List Byte) : Except DecodeError (Record × List Byte) :=
  if bytes.length < 2 ∨ bytes.length < recordLength (bytes.getD 1 0) then .error .recordTooShort
  else .ok (recordFrom (fun k => bytes.getD k 0), bytes.drop (recordLength (bytes.getD 1 0)))

/-- The next `n` records of a list of bytes, and the bytes after them. -/
def decodeRecords : Nat → List Byte → Except DecodeError (List Record × List Byte)
  | 0, bytes => .ok ([], bytes)
  | n + 1, bytes =>
    match decodeRecord bytes with
    | .error e => .error e
    | .ok (r, rest) =>
      match decodeRecords n rest with
      | .error e => .error e
      | .ok (rs, rest') => .ok (r :: rs, rest')

/-- The Command Table at the head of a list of bytes, and the bytes after it (30_encoding.md R70). -/
def decodeTable : List Byte → Except DecodeError (List Record × List Byte)
  | [] => .error .noHeader
  | n :: rest => decodeRecords n.toNat rest

/-! ### Host requests -/

/-- The operation a request asks for (30_encoding.md R79 to R81): each reads only its own fields, and the reserved codes
are `NOP`. -/
def decodeRequest (r : Request) : Instr :=
  match r.op.toNat with
  | 0 => .nop000
  | 1 => .init r.freq
  | 2 => .setWindow r.x r.y r.w r.h
  | 3 => .setOffsets r.x r.y
  | 4 => .setDisplay r.en
  | 5 => .setTearing r.en
  | 6 => .nop110
  | _ => .nop111

/-! ### The block's own commands -/

/-- The command the bytes of a transaction are, under parameters `p` (30_encoding.md R82 to R84). The block itself never
reads a command back: this direction exists to say that the emitted bytes determine the command. -/
def decodeCommand (p : Params) : List Byte → Except DecodeError Instr
  | [op] =>
    if op = p.opcRamwr then .ok .ramwr
    else if op = p.opcDispon then .ok .dispon
    else if op = p.opcDispoff then .ok .dispoff
    else if op = p.opcTeon then .ok .teon
    else if op = p.opcTeoff then .ok .teoff
    else .error .notAnOwnCommand
  | [op, v] => if op = p.opcMadctl ∧ v = p.madctlValue then .ok .madctl else .error .notAnOwnCommand
  | [op, a, b, c, d] =>
    if op = p.opcCaset then .ok (.caset (a ++ b) (c ++ d))
    else if op = p.opcRaset then .ok (.raset (a ++ b) (c ++ d))
    else .error .notAnOwnCommand
  | _ => .error .notAnOwnCommand

/-! ### The transport channel -/

/-- `tx_kind[1:0]` of a beat (42_dispatcher_primitives.md R167). -/
def Beat.kind : Beat → BitVec 2
  | .cfg _ _ => 0b00#2
  | .cmd _ _ => 0b01#2
  | .data _ => 0b10#2
  | .delay _ => 0b11#2

/-- `tx_data[31:0]` of the `n`-th beat (R167). DESIGN CHOICE (log entry 17, safe): R167 gives `CMD`, `DATA` and `DELAY`
the low byte alone, and the upper 24 bits are a free value. -/
def Beat.txData (n : Nat) : Beat → U32
  | .cfg f _ => f
  | .cmd op _ => Config.txDataUnused n ++ op
  | .data b => Config.txDataUnused n ++ b
  | .delay ms => Config.txDataUnused n ++ ms

/-- `tx_len[6:0]` of the `n`-th beat (R167). DESIGN CHOICE (log entry 17, safe): R167 gives it for `CMD` alone, and on the
other kinds it is a free value. -/
def Beat.txLen (n : Nat) : Beat → BitVec 7
  | .cmd _ len => len
  | .cfg _ _ | .data _ | .delay _ => Config.txLenUnused n

/-- `tx_mode` of the `n`-th beat (R167). DESIGN CHOICE (log entry 17, safe): R167 gives it for `CFG` alone, and on the other
kinds it is a free value. -/
def Beat.txMode (n : Nat) : Beat → Mode
  | .cfg _ mode => mode
  | .cmd _ _ | .data _ | .delay _ => ⟨Config.txModeUnused n⟩

/-- The signals of one beat on the transport channel (R167). -/
structure TxSignals where
  kind : BitVec 2
  data : U32
  len : BitVec 7
  mode : Mode
  deriving DecidableEq, Repr

/-- The signals of the beat that is the `n`-th since reset: those R167 gives its kind, and free values on the others
(log entry 17). -/
def Beat.signals (n : Nat) (b : Beat) : TxSignals := ⟨b.kind, b.txData n, b.txLen n, b.txMode n⟩

/-- The beats of the transaction `Txn(op, args)`: one `CMD` beat with the number of argument bytes, then one `DATA` beat
for each (R167). -/
def txnBeats (op : Byte) (args : List Byte) : List Beat :=
  .cmd op (BitVec.ofNat 7 args.length) :: args.map .data

/-- The bytes of a run of `DATA` beats, none if another kind stands among them. -/
def dataBytes : List Beat → Option (List Byte)
  | [] => some []
  | .data b :: rest => (dataBytes rest).map (b :: ·)
  | _ :: _ => none

/-- The primitive a whole transaction is. The three call forms of a transaction cannot be told apart from its beats
(30_encoding.md R85): the empty one is read as `SendCommand0`, one of four bytes as `Write32`, any other as `SendCommand`. -/
def sendForm (op : Byte) : List Byte → Instr
  | [] => .sendCommand0 op
  | [a, b, c, d] => .write32 op (a ++ b ++ c ++ d)
  | args => .sendCommand op args

/-- The primitive a list of beats is (42_dispatcher_primitives.md R167). -/
def decodeBeats : List Beat → Except DecodeError Instr
  | [.cfg f mode] => .ok (.configure f mode)
  | [.delay ms] => .ok (.delay ms)
  | .cmd op len :: rest =>
    match dataBytes rest with
    | some args => if args.length = len.toNat then .ok (sendForm op args) else .error .brokenBeats
    | none => .error .brokenBeats
  | _ => .error .brokenBeats

/-! ### The decoder -/

/-- The instruction a piece of encoded bits is, total, rejecting by name. -/
def decode (p : Params) : Code → Except DecodeError Instr
  | .header b => .ok (.count b)
  | .record bytes =>
    match decodeRecord bytes with
    | .error e => .error e
    | .ok (r, []) => .ok r.toInstr
    | .ok (_, _ :: _) => .error .recordTooLong
  | .request r => .ok (decodeRequest r)
  | .command bytes => decodeCommand p bytes
  | .beats bs => decodeBeats bs

/-! ### The encoder -/

/-- A record's bytes, `[op, spec] ++ args ++ dly` (30_encoding.md R70). -/
def encodeRecord (r : Record) : List Byte :=
  [r.op, argSpec r.args.length r.delay.isSome] ++ r.args ++ r.delay.toList

/-- A Command Table's bytes, `[n] ++ rec_1 ++ ... ++ rec_n` (R70). -/
def encodeTable (rs : List Record) : List Byte :=
  BitVec.ofNat 8 rs.length :: rs.flatMap encodeRecord

/-- The request with operation code `op` and every operand field zero. -/
def Request.bare (op : BitVec 3) : Request := ⟨op, 0, 0, 0, 0, 0, false⟩

/-- The encoding of an instruction under parameters `p` (30_encoding.md R71, R72, R79, R81, R82; 42_dispatcher_primitives.md
R167). Operand fields an operation ignores are zero. -/
def encode (p : Params) : Instr → Code
  | .count n => .header n
  | .cmd op args => .record (encodeRecord ⟨op, args, none⟩)
  | .cmdd op args ms => .record (encodeRecord ⟨op, args, some ms⟩)
  | .nop000 => .request (Request.bare 0b000#3)
  | .init freq => .request { Request.bare 0b001#3 with freq := freq }
  | .setWindow x y w h => .request { Request.bare 0b010#3 with x := x, y := y, w := w, h := h }
  | .setOffsets col row => .request { Request.bare 0b011#3 with x := col, y := row }
  | .setDisplay en => .request { Request.bare 0b100#3 with en := en }
  | .setTearing en => .request { Request.bare 0b101#3 with en := en }
  | .nop110 => .request (Request.bare 0b110#3)
  | .nop111 => .request (Request.bare 0b111#3)
  | .caset xs xe => .command (p.opcCaset :: be32 (packWindow xs xe))
  | .raset ys ye => .command (p.opcRaset :: be32 (packWindow ys ye))
  | .ramwr => .command [p.opcRamwr]
  | .madctl => .command [p.opcMadctl, p.madctlValue]
  | .dispon => .command [p.opcDispon]
  | .dispoff => .command [p.opcDispoff]
  | .teon => .command [p.opcTeon]
  | .teoff => .command [p.opcTeoff]
  | .configure f mode => .beats [.cfg f mode]
  | .sendCommand op args => .beats (txnBeats op args)
  | .sendCommand0 op => .beats (txnBeats op [])
  | .write32 op v => .beats (txnBeats op (be32 v))
  | .delay ms => .beats [.delay ms]

/-- The form the decoder gives an instruction that shares its encoding with another (30_encoding.md R85, R87): a
`SendCommand` without arguments is `SendCommand0`, one of four argument bytes is `Write32`. Every other instruction is
its own. -/
def Instr.normal : Instr → Instr
  | .sendCommand op args => sendForm op args
  | i => i

/-! ### The opcode table's words -/

/-- The encoded bits of a word of spec/opcode_table.json, every bit above `nbits` zero (log entry 10). A record's two
bytes are one 16-bit word, the first byte in bits 15:8, followed by zero bytes up to its length. A word of 8 bits is a host
operation code where it is below 8, and a header byte otherwise: the table gives the two the same bits, and only the place
of the byte tells them apart (30_encoding.md R88). The 3-bit and 2-bit numbers are the codes `req_op` and `tx_kind`
alone; a `tx_kind` of `CMD` has `tx_len = 0`, and one of `DATA` stands for the four bytes of a `Write32`. -/
def codeOfTableWord (nbits w : Nat) : Option Code :=
  match nbits with
  | 2 =>
    match w with
    | 0 => some (.beats [.cfg 0 ⟨0⟩])
    | 1 => some (.beats (txnBeats 0 []))
    | 2 => some (.beats (txnBeats 0 (be32 0)))
    | 3 => some (.beats [.delay 0])
    | _ => none
  | 3 => if w < 8 then some (.request (Request.bare (BitVec.ofNat 3 w))) else none
  | 8 =>
    if w < 8 then some (.request (Request.bare (BitVec.ofNat 3 w)))
    else if w < 256 then some (.header (BitVec.ofNat 8 w))
    else none
  | 16 =>
    if w < 65536 then
      let spec := BitVec.ofNat 8 w
      some (.record ([BitVec.ofNat 8 (w / 256), spec] ++ List.replicate (recordLength spec - 2) 0))
    else none
  | _ => none

/-- The instruction the decoder reads from a word of spec/opcode_table.json, none where it refuses. -/
def decodeTableWord (nbits w : Nat) : Option Instr :=
  match codeOfTableWord nbits w with
  | none => none
  | some c =>
    match decode Config.params c with
    | .ok i => some i
    | .error _ => none

end Sys2Proof
end

