-- ==== Sys2Proof/Machine/Memory.lean ====
section
/-! DEFINITION. The table memory `ROM` of spec/20_memory.md as plain data: a list of cells in one canonical form. -/

namespace Sys2Proof.Machine

/-- A byte memory as the cells that differ from `Memory.fill`, addresses strictly rising. The block has no write path
(20_memory.md R53), so there is no write operation: a memory image is made whole, by `Memory.tabulate`. -/
abbrev Memory := List Host.Cell

/-- What an address that is not listed reads as (log entry 3). It stands for no content of a real memory: every total
content of the address space, `ROM` of R51, is some list of cells. -/
def Memory.fill : Byte := 0#8

/-- The byte at an address. It is total: a read cannot fault (R54). -/
def Memory.read : Memory → Nat → Byte
  | [], _ => Memory.fill
  | (b, v) :: rest, a => if a = b then v else Memory.read rest a

/-- Every cell lies at an address of at least `low`, the addresses rise strictly and no cell equals `Memory.fill`. -/
def Memory.wfFrom : Nat → Memory → Bool
  | _, [] => true
  | low, (a, v) :: rest => decide (low ≤ a) && v != Memory.fill && Memory.wfFrom (a + 1) rest

/-- The canonical form: two memories in it that read alike everywhere are equal. -/
def Memory.wf (m : Memory) : Bool := Memory.wfFrom 0 m

/-- The memory that holds `f a` at the `n` addresses from `start` up, in canonical form. -/
def Memory.tabulate (f : Nat → Byte) (start : Nat) : Nat → Memory
  | 0 => []
  | n + 1 =>
    if f start = Memory.fill then Memory.tabulate f (start + 1) n
    else (start, f start) :: Memory.tabulate f (start + 1) n

/-- The memory image whose bytes from address 0 up are `bytes`. -/
def Memory.ofBytes (bytes : List Byte) : Memory := Memory.tabulate (fun a => bytes.getD a Memory.fill) 0 bytes.length

end Sys2Proof.Machine
end

