-- ==== Sys2Proof/Machine/State.lean ====
section
/-! DEFINITION. The state of one device instance (spec/10_state.md), its reset, and the reasons a step can stop. -/

namespace Sys2Proof.Machine

/-- The lifecycle bit (10_state.md R31). -/
inductive Lifecycle where
  | uninitialized
  | ready
  deriving DecidableEq, Repr

/-- Which of the two Command Tables (20_memory.md R51). -/
inductive Table where
  | first
  | second
  deriving DecidableEq, Repr

/-- `Idle`, or `Busy` in one of six ways (10_state.md R34). How `Busy` is split is not architectural; the split here is
the model's (log entry 4). -/
inductive Phase where
  /-- `Idle`: a request can be accepted. -/
  | idle
  /-- `Busy`: an operation has been accepted and its effect is being made. -/
  | running
  /-- `Busy` inside `INIT`: the cursor stands at the header byte of a table. -/
  | header (t : Table)
  /-- `Busy` inside `INIT`: at the head of the record loop of a table. -/
  | records (t : Table)
  /-- `Busy` inside `INIT`: both tables replayed, the orientation command comes next. -/
  | orientation
  /-- `Busy`: the own commands and primitives the running operation has still to make, in order (as between the three
  transactions of `SET_WINDOW`, 20_memory.md R64). -/
  | sending (rest : List Instr)
  /-- `Busy`: waiting for a collaborator that never completes the last event (42_dispatcher_primitives.md R166). -/
  | waiting
  deriving DecidableEq, Repr

/-- An event of the trace (30_encoding.md R85). -/
inductive Event where
  /-- `Cfg(freq, mode)`. -/
  | cfg (freq : U32) (mode : Mode)
  /-- `Txn(op, args)`. -/
  | txn (op : Byte) (args : List Byte)
  /-- `Delay(ms)`. -/
  | delay (ms : Byte)
  deriving DecidableEq, Repr

/-- What the host presents to the block: a request (41_host_operations.md R141), or an assertion of the reset input
`rst` (70_reset_and_hazards.md R200). -/
inductive Input where
  | request (r : Request)
  | rst
  deriving DecidableEq, Repr

/-- The state of one device instance: everything of 10_state.md R20, the parameters and the table memory (fixed for a
run: R36, 20_memory.md R53), the completion output of 41_host_operations.md R142, and the model's own three fields: the
history of the table memory port, and two that stand for the environment. -/
@[ext]
structure State where
  /-- The OPEN parameters (00_scope.md R7). -/
  cfg : Params
  /-- The table memory `ROM` (20_memory.md R51). -/
  rom : Memory
  /-- Column offset (10_state.md R27). -/
  colStart : S16
  /-- Row offset (R27). -/
  rowStart : S16
  /-- Effective column origin (R28). -/
  xOrigin : S16
  /-- Effective row origin (R28). -/
  yOrigin : S16
  /-- Clock frequency of the last `INIT`, 0 meaning unset (R29). -/
  busFreq : U32
  /-- The lifecycle bit (R31). -/
  lifecycle : Lifecycle
  /-- The program counter: the address of the next table byte (R22), below `2 ^ cfg.addrW`. -/
  cursor : Nat
  /-- Records still to do (R23). -/
  remaining : Byte
  /-- Opcode byte of the record being decoded (R24). -/
  opcodeReg : Byte
  /-- Arg-spec byte of the record being decoded (R25). -/
  argSpecReg : Byte
  /-- Argument bytes of the record handed to the transport (R25). -/
  argIdx : BitVec 7
  /-- Delay byte of the record being decoded (R26). -/
  delayReg : Byte
  /-- `Idle` or `Busy` (R34). -/
  phase : Phase
  /-- Every event emitted since reset, oldest first (R33). -/
  trace : List Event
  /-- The model's own: every address driven on `rom_addr` for a wanted byte since reset, oldest first (20_memory.md R54,
  R67; log entry 16). No operation reads it. -/
  reads : List Nat
  /-- `rsp_done`: the last step completed an operation (41_host_operations.md R141, R142). -/
  rspDone : Bool
  /-- The model's own: what the host will present, in order (log entry 6). -/
  inputs : List Input
  /-- The model's own: how many of the coming events the collaborators complete, `none` for every one
  (42_dispatcher_primitives.md R166; log entry 7). -/
  willComplete : Option Nat
  deriving DecidableEq, Repr

/-- Why a step stops with a fault: there is no reason. The block raises nothing (60_exceptions.md R180), so the type has
no constructor and no step of the model can fault; that is exact, neither safe nor unsafe. -/
inductive Fault where
  deriving DecidableEq, Repr

/-- Why a step is refused. -/
inductive Refusal where
  /-- Raised by an arm of `exec` whose instruction has no meaning yet. Safe. No arm raises it: every instruction of the
  table has its meaning. -/
  | notModelled (mnemonic : String)
  deriving DecidableEq, Repr

/-- The device with parameters `p` and table memory `m` right after reset (10_state.md R38, 70_reset_and_hazards.md
R200). The six working registers, "unspecified" there, are zero (DESIGN CHOICE, unsafe: log entry 1). -/
def State.fresh (p : Params) (m : Memory) : State where
  cfg := p
  rom := m
  colStart := 0
  rowStart := 0
  xOrigin := 0
  yOrigin := 0
  busFreq := 0
  lifecycle := .uninitialized
  cursor := 0
  remaining := 0
  opcodeReg := 0
  argSpecReg := 0
  argIdx := 0
  delayReg := 0
  phase := .idle
  trace := []
  reads := []
  rspDone := false
  inputs := []
  willComplete := none

/-- The content of the parameter `ROM` of `Config` as a memory (log entries 2 and 3). -/
def Memory.parameter : Memory :=
  Memory.tabulate (fun a => Config.rom (BitVec.ofNat Config.addrW a)) 0 (2 ^ Config.addrW)

/-- The machine right after reset: the device of `Config.params` and `Config.rom`, of whose values nothing is known. -/
def State.reset : State := State.fresh Config.params Memory.parameter

end Sys2Proof.Machine
end

