-- ==== Sys2Proof/Machine/Flags.lean ====
section
/-! DEFINITION. The condition flags of spec/10_state.md R25: the two fields of the arg-spec register. There is no other flag:
no operation records anything about an arithmetic result. -/

namespace Sys2Proof.Machine

/-- The flag `D = argSpecReg[7]`, "delay follows" (10_state.md R25). -/
def State.flagD (s : State) : Bool := delayFollows s.argSpecReg

/-- The field `argCount = argSpecReg[6:0]` (R25). -/
def State.flagArgCount (s : State) : Nat := argCount s.argSpecReg

end Sys2Proof.Machine
end

