-- ==== Sys2Proof/Machine/Operands.lean ====
section
/-! DEFINITION. The values the operations compute from their operands: the clock of `INIT`, the window arithmetic of
spec/41_host_operations.md R132 and R137, and addresses of the table memory. -/

namespace Sys2Proof.Machine

/-- `a +_ADDR_W k`: address arithmetic is modulo `2 ^ ADDR_W` (20_memory.md R60). -/
def addrAdd (p : Params) (a k : Nat) : Nat := (a + k) % 2 ^ p.addrW

/-- The frequency `INIT` configures: the default when its operand is zero (41_host_operations.md R131). -/
def clockFor (p : Params) (freq : U32) : U32 := if freq = 0 then p.defaultClockHz else freq

/-- The first coordinate of a window, `xs = x +_16 bits16(colStart)` (R132, R137). -/
def windowStart (coord : U16) (offset : S16) : U16 := coord + offset

/-- The last coordinate of a window, `xe = (xs +_16 w) -_16 1` (R132, R137). -/
def windowEnd (start size : U16) : U16 := start + size - 1

/-- The argument bytes that carry a window's first and last coordinate (30_encoding.md R83). -/
def windowArgs (start stop : U16) : List Byte := be32 (packWindow start stop)

/-- The address of the header byte of a table (20_memory.md R51). -/
def tableBase (p : Params) : Table → Nat
  | .first => p.table1Base
  | .second => p.table2Base

/-- The command byte of `SET_DISPLAY` (41_host_operations.md R134). -/
def displayOpcode (p : Params) (en : Bool) : Byte := if en then p.opcDispon else p.opcDispoff

/-- The command byte of `SET_TEARING` (R135). -/
def tearingOpcode (p : Params) (en : Bool) : Byte := if en then p.opcTeon else p.opcTeoff

end Sys2Proof.Machine
end

