-- ==== Sys2Proof/Machine/Ops.lean ====
section
/-! DEFINITION. The operations the meanings are written over: reads of the table memory, the one operation that emits an
event, the steps of a record, and Replay. The block takes no exception and returns from none (spec/60_exceptions.md R180, R186), so
there is no such operation; its one asynchronous event is reset, `State.afterReset`. -/

namespace Sys2Proof.Machine

/-! ### Emitting an event -/

/-- The environment assumption of 42_dispatcher_primitives.md R166, as a premise on the state: the collaborators complete
every event, and none is outstanding. -/
abbrev State.Live (s : State) : Prop := s.willComplete = none ∧ s.phase ≠ .waiting

/-- `emit E` (00_scope.md section 6): `E` is appended to the trace and handed to its collaborator. If the collaborator
never completes it the block waits for ever (R166). -/
def State.emit (e : Event) (s : State) : State :=
  { s with
    trace := s.trace ++ [e]
    willComplete := s.willComplete.map (· - 1)
    phase := if s.willComplete = some 0 then .waiting else s.phase }

/-- The next statement of an operation: it runs only once the event before it is complete (R166). -/
def State.andThen (s : State) (f : State → State) : State := if s.phase = .waiting then s else f s

/-- `SendCommand(op, args)` (R160). -/
def State.sendCommand (op : Byte) (args : List Byte) (s : State) : State := s.emit (.txn op args)

/-- `Delay(ms)` (R163). -/
def State.delay (ms : Byte) (s : State) : State := s.emit (.delay ms)

/-- `Configure(f, mode)` (R164). -/
def State.configure (f : U32) (mode : Mode) (s : State) : State := s.emit (.cfg f mode)

/-! ### Reading the table memory -/

/-- `rom_data`: what the table memory answers to an address on `rom_addr` (20_memory.md R67). -/
def State.romData (s : State) (addr : Nat) : Byte := s.rom.read addr

/-- `MemRead(a, 1)` (R54). The address port carries the low `ADDR_W` bits (R67). -/
def State.memRead (s : State) (a : Nat) : Byte := s.romData (a % 2 ^ s.cfg.addrW)

/-- `rom_addr` while the block wants the byte `k` places after the cursor, addresses wrapping: the cursor itself for an
opcode, arg-spec, header or delay byte, `cursor +_ADDR_W i` for argument byte `i` (R54, R60, R67). DESIGN CHOICE (log
entry 16, safe): R67 does not say what `rom_addr` carries while the block wants no byte, and the model gives it no value
then. -/
def State.romAddr (s : State) (k : Nat) : Nat := addrAdd s.cfg s.cursor k

/-- The byte `k` places after the cursor, read through the port (R54). -/
def State.byteAhead (s : State) (k : Nat) : Byte := s.memRead (s.romAddr k)

/-- The block has wanted the `n` bytes from the cursor up, in increasing order: `rom_addr` carried the address of each
(R67; log entry 16). -/
def State.readAhead (n : Nat) (s : State) : State := { s with reads := s.reads ++ (List.range n).map s.romAddr }

/-- `cursor <- cursor +_ADDR_W k`. -/
def State.advance (k : Nat) (s : State) : State := { s with cursor := addrAdd s.cfg s.cursor k }

/-- The record at the cursor: what the decoder reads from the bytes there (40_table_records.md R110). -/
def State.recordHere (s : State) : Record := recordFrom s.byteAhead

/-- The bytes of the record at the cursor, as many as its second byte announces (30_encoding.md R88). -/
def State.recordBytes (s : State) : List Byte := (List.range (recordLength (s.byteAhead 1))).map s.byteAhead

/-! ### The steps of a table form (40_table_records.md R100 to R106) -/

/-- `COUNT` (R101): the header byte is read, the record counter is loaded, the cursor steps past the byte. -/
def State.loadCount (n : Byte) (s : State) : State := { (s.readAhead 1).advance 1 with remaining := n }

/-- Steps (1) and (2) of R106: the opcode and arg-spec bytes are read, the cursor steps past each. -/
def State.fetchHead (s : State) : State :=
  { s.readAhead 2 with
    opcodeReg := s.byteAhead 0
    argSpecReg := s.byteAhead 1
    cursor := addrAdd s.cfg (addrAdd s.cfg s.cursor 1) 1 }

/-- Steps (4) and (5) of R106, the body of `CMD` (R102): the argument bytes are read and handed over, the transaction is emitted
with the cursor at the first argument byte (10_state.md R22), then the cursor steps past the arguments. `argIdx` ends at
the number of arguments handed over (R25; DEDUCED, log entry 8). All the argument bytes count as read, of a transaction
that is never completed too (DESIGN CHOICE, log entry 18). -/
def State.sendRecord (op : Byte) (args : List Byte) (s : State) : State :=
  (State.sendCommand op args { s.readAhead args.length with argIdx := BitVec.ofNat 7 args.length }).andThen
    (State.advance args.length)

/-- Steps (6) and (7) of R106: the delay byte is read into `delayReg`, the cursor steps past it, the delay is emitted. -/
def State.honourDelay (ms : Byte) (s : State) : State := State.delay ms { (s.readAhead 1).advance 1 with delayReg := ms }

/-- The body of `CMDD` (R103): the body of `CMD`, then the delay. -/
def State.sendRecordThenDelay (op : Byte) (args : List Byte) (ms : Byte) (s : State) : State :=
  (s.sendRecord op args).andThen (State.honourDelay ms)

/-- Step (8) of R106: `remaining <- remaining -_8 1`. -/
def State.endRecord (s : State) : State := { s with remaining := s.remaining - 1 }

/-- The argument bytes of the record whose head has been fetched: the `argCount` bytes from the cursor up (R102, R107). -/
def State.argBytes (s : State) : List Byte := (List.range s.flagArgCount).map s.byteAhead

/-- `CMD` on the working registers, as R102 has it: the opcode is `opcodeReg`, the argument count `argSpecReg[6:0]`. -/
def State.runCmd (s : State) : State := s.sendRecord s.opcodeReg s.argBytes

/-- `CMDD` on the working registers, as R103 has it: `CMD`, then the delay byte, which stands at the cursor. -/
def State.runCmdd (s : State) : State := s.runCmd.andThen fun t => t.honourDelay (t.byteAhead 0)

/-- One turn of the record loop of R100: the head is fetched, bit 7 of the arg-spec register chooses the form. -/
def State.runRecord (s : State) : State :=
  let t := s.fetchHead
  (if t.flagD then t.runCmdd else t.runCmd).andThen State.endRecord

/-! ### Replay -/

/-- `n` turns of the record loop; a turn after an event that is never completed does not happen. -/
def State.runRecords : Nat → State → State
  | 0, s => s
  | n + 1, s => s.runRecord.andThen (State.runRecords n)

/-- `while remaining != 0` (R100): each turn takes one off `remaining`, so the loop runs `remaining` times (R104). -/
def State.recordLoop (s : State) : State := s.runRecords s.remaining.toNat

/-- `cursor <- base`, the start of a Replay (R100). -/
def State.enterTable (t : Table) (s : State) : State := { s with cursor := tableBase s.cfg t }

/-- `Replay` of a table (R100): the cursor is set, `COUNT` is executed on the header byte, then the records. -/
def State.replay (t : Table) (s : State) : State :=
  let s := s.enterTable t
  (s.loadCount (s.byteAhead 0)).recordLoop

/-! ### The steps of `INIT` (41_host_operations.md R131) -/

/-- `busFreq <- f; emit Cfg(f, TRANSFER_MODE)`. -/
def State.configureBus (freq : U32) (s : State) : State :=
  let f := clockFor s.cfg freq
  State.configure f s.cfg.transferMode { s with busFreq := f }

/-- The orientation command, `emit Txn(OPC_MADCTL, [MADCTL_VALUE])` (30_encoding.md R84). -/
def State.orient (s : State) : State := s.sendCommand s.cfg.opcMadctl [s.cfg.madctlValue]

/-- `xOrigin <- colStart; yOrigin <- rowStart; lifecycle <- Ready`. -/
def State.becomeReady (s : State) : State :=
  { s with xOrigin := s.colStart, yOrigin := s.rowStart, lifecycle := .ready }

/-! ### Accepting, completing and resetting -/

/-- A request is accepted: it leaves the channel, the block is `Busy` (41_host_operations.md R130). -/
def State.accept (rest : List Input) (s : State) : State := { s with inputs := rest, phase := .running }

/-- The operation has completed: its completion is signalled once and the block is `Idle` again (R142). -/
def State.complete (s : State) : State := { s with phase := .idle, rspDone := true }

/-- The state after reset, the inputs `rest` still to come (70_reset_and_hazards.md R200). Reset does not touch the
parameters, the table memory or the collaborators, so `willComplete` stays as it is. DESIGN CHOICE (log entry 19,
unsafe): R202 cannot say what a collaborator does after a reset that ends a wait for it; here one that hung goes on
hanging, and every later event waits too. -/
def State.afterReset (rest : List Input) (s : State) : State :=
  { State.fresh s.cfg s.rom with inputs := rest, willComplete := s.willComplete }

end Sys2Proof.Machine
end

