-- ==== Sys2Proof/Machine/HostOps.lean ====
section
/-! DEFINITION. The meanings of the host operations (spec/41_host_operations.md). None is gated by the lifecycle (R140), none
fails (60_exceptions.md R180). -/

namespace Sys2Proof.Machine

/-- `NOP`, code `0b000` (R136): no register changes, nothing is emitted. -/
def execNop000 (s : State) : Host.Outcome State Fault Refusal := .next s

/-- `INIT freq` (R131): configure the bus, replay both tables, send the orientation byte, latch the offsets. -/
def execInit (freq : U32) (s : State) : Host.Outcome State Fault Refusal :=
  .next (((((s.configureBus freq).andThen (State.replay .first)).andThen (State.replay .second)).andThen
    State.orient).andThen State.becomeReady)

/-- `SET_WINDOW x, y, w, h` (R132): column range, row range, write-RAM. -/
def execSetWindow (x y w h : U16) (s : State) : Host.Outcome State Fault Refusal :=
  let xs := windowStart x s.colStart
  let ys := windowStart y s.rowStart
  .next (((s.sendCommand s.cfg.opcCaset (windowArgs xs (windowEnd xs w))).andThen
    (State.sendCommand s.cfg.opcRaset (windowArgs ys (windowEnd ys h)))).andThen
    (State.sendCommand s.cfg.opcRamwr []))

/-- `SET_OFFSETS col, row` (R133): both offsets at once, nothing emitted. -/
def execSetOffsets (col row : S16) (s : State) : Host.Outcome State Fault Refusal :=
  .next { s with colStart := col, rowStart := row }

/-- `SET_DISPLAY en` (R134). -/
def execSetDisplay (en : Bool) (s : State) : Host.Outcome State Fault Refusal :=
  .next (s.sendCommand (displayOpcode s.cfg en) [])

/-- `SET_TEARING en` (R135). -/
def execSetTearing (en : Bool) (s : State) : Host.Outcome State Fault Refusal :=
  .next (s.sendCommand (tearingOpcode s.cfg en) [])

/-- `NOP`, code `0b110` (R136). -/
def execNop110 (s : State) : Host.Outcome State Fault Refusal := .next s

/-- `NOP`, code `0b111` (R136). -/
def execNop111 (s : State) : Host.Outcome State Fault Refusal := .next s

end Sys2Proof.Machine
end

