-- ==== Sys2Proof/Machine/OwnCommands.lean ====
section
/-! DEFINITION. The meanings of the eight commands the block emits on its own (spec/30_encoding.md R82 to R84): each is
one transaction. -/

namespace Sys2Proof.Machine

/-- The column address set command, four argument bytes (R82, R83). -/
def execCaset (xs xe : U16) (s : State) : Host.Outcome State Fault Refusal :=
  .next (s.sendCommand s.cfg.opcCaset (windowArgs xs xe))

/-- The row address set command, four argument bytes (R82, R83). -/
def execRaset (ys ye : U16) (s : State) : Host.Outcome State Fault Refusal :=
  .next (s.sendCommand s.cfg.opcRaset (windowArgs ys ye))

/-- The write to display RAM command, no argument (R82). -/
def execRamwr (s : State) : Host.Outcome State Fault Refusal := .next (s.sendCommand s.cfg.opcRamwr [])

/-- The orientation and colour-order command, the one argument `MADCTL_VALUE` (R82, R84). -/
def execMadctl (s : State) : Host.Outcome State Fault Refusal := .next s.orient

/-- The display-on command, no argument (R82). -/
def execDispon (s : State) : Host.Outcome State Fault Refusal := .next (s.sendCommand s.cfg.opcDispon [])

/-- The display-off command, no argument (R82). -/
def execDispoff (s : State) : Host.Outcome State Fault Refusal := .next (s.sendCommand s.cfg.opcDispoff [])

/-- The tearing-on command, no argument (R82, 41_host_operations.md R135). -/
def execTeon (s : State) : Host.Outcome State Fault Refusal := .next (s.sendCommand s.cfg.opcTeon [])

/-- The tearing-off command, no argument (R82). -/
def execTeoff (s : State) : Host.Outcome State Fault Refusal := .next (s.sendCommand s.cfg.opcTeoff [])

end Sys2Proof.Machine
end

