-- ==== Sys2Proof/Machine/Primitives.lean ====
section
/-! DEFINITION. The meanings of the dispatcher's primitives (spec/42_dispatcher_primitives.md). -/

namespace Sys2Proof.Machine

/-- `Configure(f, mode)` (R164). -/
def execConfigure (f : U32) (mode : Mode) (s : State) : Host.Outcome State Fault Refusal :=
  .next (s.configure f mode)

/-- `SendCommand(op, args)` (R160). -/
def execSendCommand (op : Byte) (args : List Byte) (s : State) : Host.Outcome State Fault Refusal :=
  .next (s.sendCommand op args)

/-- `SendCommand0(op)` (R161). -/
def execSendCommand0 (op : Byte) (s : State) : Host.Outcome State Fault Refusal := .next (s.sendCommand op [])

/-- `Write32(v)` after the command byte `op`, that is `SendCommand32(op, v)` (R162). -/
def execWrite32 (op : Byte) (v : U32) (s : State) : Host.Outcome State Fault Refusal :=
  .next (s.sendCommand op (be32 v))

/-- `Delay(ms)` (R163). -/
def execDelay (ms : Byte) (s : State) : Host.Outcome State Fault Refusal := .next (s.delay ms)

end Sys2Proof.Machine
end

