-- ==== Sys2Proof/Machine/TableForms.lean ====
section
/-! DEFINITION. The meanings of the table-level forms (spec/40_table_records.md). -/

namespace Sys2Proof.Machine

/-- `COUNT n` (R101), entered with the cursor at the header byte. -/
def execCount (n : Byte) (s : State) : Host.Outcome State Fault Refusal := .next (s.loadCount n)

/-- `CMD op, [args]` (R102), entered with the record's first two bytes fetched and the cursor at the first argument
byte. -/
def execCmd (op : Byte) (args : List Byte) (s : State) : Host.Outcome State Fault Refusal :=
  .next (s.sendRecord op args)

/-- `CMDD op, [args], ms` (R103), entered as `CMD` is. -/
def execCmdd (op : Byte) (args : List Byte) (ms : Byte) (s : State) : Host.Outcome State Fault Refusal :=
  .next (s.sendRecordThenDelay op args ms)

end Sys2Proof.Machine
end

