-- ==== Sys2Proof/Machine/Dispatch.lean ====
section
/-! DEFINITION. One arm per row of spec/opcode_table.json. -/

namespace Sys2Proof.Machine

def exec (i : Instr) (s : State) : Host.Outcome State Fault Refusal :=
  match i with
  | .count n => Sys2Proof.Machine.execCount n s
  | .cmd op args => Sys2Proof.Machine.execCmd op args s
  | .cmdd op args ms => Sys2Proof.Machine.execCmdd op args ms s
  | .nop000 => Sys2Proof.Machine.execNop000 s
  | .init freq => Sys2Proof.Machine.execInit freq s
  | .setWindow x y w h => Sys2Proof.Machine.execSetWindow x y w h s
  | .setOffsets col row => Sys2Proof.Machine.execSetOffsets col row s
  | .setDisplay en => Sys2Proof.Machine.execSetDisplay en s
  | .setTearing en => Sys2Proof.Machine.execSetTearing en s
  | .nop110 => Sys2Proof.Machine.execNop110 s
  | .nop111 => Sys2Proof.Machine.execNop111 s
  | .caset xs xe => Sys2Proof.Machine.execCaset xs xe s
  | .raset ys ye => Sys2Proof.Machine.execRaset ys ye s
  | .ramwr => Sys2Proof.Machine.execRamwr s
  | .madctl => Sys2Proof.Machine.execMadctl s
  | .dispon => Sys2Proof.Machine.execDispon s
  | .dispoff => Sys2Proof.Machine.execDispoff s
  | .teon => Sys2Proof.Machine.execTeon s
  | .teoff => Sys2Proof.Machine.execTeoff s
  | .configure f mode => Sys2Proof.Machine.execConfigure f mode s
  | .sendCommand op args => Sys2Proof.Machine.execSendCommand op args s
  | .sendCommand0 op => Sys2Proof.Machine.execSendCommand0 op s
  | .write32 op v => Sys2Proof.Machine.execWrite32 op v s
  | .delay ms => Sys2Proof.Machine.execDelay ms s

end Sys2Proof.Machine
end

