-- ==== Sys2Proof/Machine/Control.lean ====
section
/-! DEFINITION. What the block does next, by its phase (spec/10_state.md R34). From `Idle` a host operation is one step
(R34, decision D21). A state that stands in the middle of `INIT` goes on one table form a step, so that `COUNT`, `CMD` and
`CMDD` are fetched at the cursor; the two grains give the same result (log entry 4). -/

namespace Sys2Proof.Machine

/-- What follows an instruction that answers a next state. -/
def mapNext (f : State → State) : Host.Outcome State Fault Refusal → Host.Outcome State Fault Refusal
  | .next s => .next (f s)
  | .fault r => .fault r
  | .refused r => .refused r

/-- The end of a step of an operation: it completes, unless it waits for a collaborator (41_host_operations.md R142,
42_dispatcher_primitives.md R166). -/
def State.completeUnlessWaiting (s : State) : State := s.andThen State.complete

/-- Idle: the next input is taken. Without one the block waits (70_reset_and_hazards.md R201); reset needs no operation to
end (R200); a request is accepted, its operation executed and completed (41_host_operations.md R130, R142). -/
def State.stepIdle (s : State) : Host.Outcome State Fault Refusal :=
  match s.inputs with
  | [] => .next s
  | .rst :: rest => .next (s.afterReset rest)
  | .request r :: rest => mapNext State.completeUnlessWaiting (exec (decodeRequest r) (s.accept rest))

/-- `COUNT` has been executed: the record loop comes next. -/
def State.enterRecords (t : Table) (s : State) : State := { s with phase := .records t }

/-- The record loop of a table has ended: `INIT` goes on with the second table, then with the orientation command
(41_host_operations.md R131). -/
def State.leaveTable (t : Table) (s : State) : State :=
  match t with
  | .first => { s.enterTable .second with phase := .header .second }
  | .second => { s with phase := .orientation }

/-- The record loop of a table (40_table_records.md R100): it ends when `remaining` is 0; else the record at the cursor is
decoded, its head fetched, its form executed, and `remaining` stepped down. -/
def State.stepRecords (t : Table) (s : State) : Host.Outcome State Fault Refusal :=
  if s.remaining = 0 then .next (s.leaveTable t)
  else mapNext (State.andThen · State.endRecord) (exec s.recordHere.toInstr s.fetchHead)

/-- One of the instructions to send has been made: the rest come next, or the operation has completed. -/
def State.sendRest (rest : List Instr) (s : State) : State :=
  match rest with
  | [] => s.complete
  | _ :: _ => { s with phase := .sending rest }

/-- Busy, and no reset asserted: the running operation goes on. -/
def State.stepBusy (s : State) : Host.Outcome State Fault Refusal :=
  match s.phase with
  | .header t => mapNext (State.andThen · (State.enterRecords t)) (exec (.count (s.byteAhead 0)) s)
  | .records t => s.stepRecords t
  | .orientation => mapNext (fun u => (u.andThen State.becomeReady).completeUnlessWaiting) (exec .madctl s)
  | .sending (i :: rest) => mapNext (State.andThen · (State.sendRest rest)) (exec i s)
  | .sending [] => .next s.complete
  | .running => .next s.complete
  | .waiting => .next s
  | .idle => .next s

/-- One step. While the block is busy a request waits at the channel (41_host_operations.md R130) and an asserted reset
wins: it ends the operation where it stands (60_exceptions.md R185, 70_reset_and_hazards.md R202). -/
def State.stepByPhase (s : State) : Host.Outcome State Fault Refusal :=
  if s.phase = .idle then s.stepIdle
  else if Input.rst ∈ s.inputs then .next (s.afterReset (s.inputs.erase .rst))
  else s.stepBusy

/-- `rsp_done` is 1 for one step only (41_host_operations.md R141). -/
def State.clearDone (s : State) : State := { s with rspDone := false }

/-- A table memory image of `bytes` from address 0, wide enough addresses to reach them, and the cursor at its start. -/
def State.withImage (s : State) (bytes : List Byte) : State :=
  { s with cfg := { s.cfg with addrW := 16 }, rom := Memory.ofBytes bytes, cursor := 0 }

/-- The state whose next step fetches and runs the encoded instruction `c`, where a step fetches one (log entry 10). -/
def State.withCode (s : State) (c : Code) : State :=
  match c with
  | .request r => { s with phase := .idle, inputs := .request r :: s.inputs }
  | .header b => { s.withImage [b] with phase := .header .first, inputs := s.inputs.filter (· != .rst) }
  | .record bytes =>
    { s.withImage bytes with
      phase := .records .first
      remaining := 1
      inputs := s.inputs.filter (· != .rst) }
  | .command _ | .beats _ =>
    match decode s.cfg c with
    | .ok i => { s with phase := .sending [i], inputs := s.inputs.filter (· != .rst) }
    | .error _ => s

end Sys2Proof.Machine
end

