-- ==== Sys2Proof/Machine/Step.lean ====
section
/-! DEFINITION. The step of the machine, and the state that holds a given word of the opcode table where the step fetches
its next instruction. -/

namespace Sys2Proof.Machine

/-- One step of the machine. -/
def step (s : State) : Host.Outcome State Fault Refusal := s.clearDone.stepByPhase

/-- `s` with the instruction of a word of spec/opcode_table.json placed where `step` fetches its next one: a host
operation code on the request channel of an idle block, a table form in the table memory at the cursor of a block in the
middle of `INIT`, a primitive at the dispatcher of a busy block (log entry 10). -/
def State.withFetchWord (s : State) (nbits w : Nat) : State :=
  match codeOfTableWord nbits w with
  | none => s
  | some c => s.withCode c

end Sys2Proof.Machine
end

