-- ==== Sys2Proof/Machine/Ports.lean ====
section
/-! DEFINITION. What the block drives on its ports, as functions of its state: the status outputs of spec/10_state.md R37, the
request channel of 41_host_operations.md R141, the beats of 42_dispatcher_primitives.md R167 and the table memory port of
20_memory.md R67. Nothing here changes the state. -/

namespace Sys2Proof.Machine

/-- `busy`: 1 when `phase = Busy` (10_state.md R37). -/
def State.busy (s : State) : Bool := s.phase != .idle

/-- The status outputs (R37). The working registers of the decoder have no output. -/
structure StatusOutputs where
  busy : Bool
  readyState : Bool
  xOrigin : S16
  yOrigin : S16
  busFreq : U32
  colStart : S16
  rowStart : S16
  panelW : Byte
  panelH : Byte
  deriving DecidableEq, Repr

/-- The status outputs of a state: each the current value of the register named (R37). -/
def State.outputs (s : State) : StatusOutputs where
  busy := s.busy
  readyState := s.lifecycle == .ready
  xOrigin := s.xOrigin
  yOrigin := s.yOrigin
  busFreq := s.busFreq
  colStart := s.colStart
  rowStart := s.rowStart
  panelW := BitVec.ofNat 8 Config.width
  panelH := BitVec.ofNat 8 Config.height

/-- `req_valid`: the host presents a request (41_host_operations.md R141). -/
def State.reqValid (s : State) : Bool :=
  match s.inputs with
  | .request _ :: _ => true
  | _ => false

/-- `req_ready`: 1 exactly when `phase = Idle` (R141). -/
def State.reqReady (s : State) : Bool := s.phase == .idle

/-- `rom_addr` with `rom_data` for every byte the block has wanted since reset, oldest first (20_memory.md R67). DESIGN
CHOICE (log entry 16, safe): R67 does not say what `rom_addr` carries while the block wants no byte (idle, sending,
waiting), and the model gives it no value there. -/
def State.romPort (s : State) : List (Nat × Byte) := s.reads.map fun addr => (addr, s.romData addr)

/-- The beats of an event: `Cfg` and `Delay` are one beat each, `Txn(op, args)` is one `CMD` beat and one `DATA` beat for
each argument (42_dispatcher_primitives.md R167). -/
def Event.beats : Event → List Beat
  | .cfg freq mode => [.cfg freq mode]
  | .txn op args => txnBeats op args
  | .delay ms => [.delay ms]

/-- The beats of every event since reset, in order. DESIGN CHOICE (log entry 18, unsafe for a waiting block): the spec does
not say after which beat of a transaction that is never completed `tx_ready` stays 0, so how many of its beats have been
issued; here all of them count. -/
def State.beats (s : State) : List Beat := s.trace.flatMap Event.beats

/-- The signals of every beat since reset, in order. -/
def State.txSignals (s : State) : List TxSignals := s.beats.mapIdx Beat.signals

/-- The event whose one call form an instruction of the dispatcher is, none for any other instruction (30_encoding.md
R85). -/
def Event.ofPrimitive : Instr → Option Event
  | .configure f mode => some (.cfg f mode)
  | .sendCommand op args => some (.txn op args)
  | .sendCommand0 op => some (.txn op [])
  | .write32 op v => some (.txn op (be32 v))
  | .delay ms => some (.delay ms)
  | _ => none

end Sys2Proof.Machine
end

