-- ==== Sys2Proof/Safety.lean ====
section
/-! DEFINITION. The terms the statements use: what a table says and what its Replay emits, the caller's contract, the open
window, and the invariant of the machine. -/

namespace Sys2Proof

open Machine

/-! ### Terms about the syntax -/

/-- A record an author may write: at most 127 argument bytes (20_memory.md R68). -/
abbrev Record.wf (r : Record) : Prop := r.args.length ≤ maxArgs

/-- The events of one record: its transaction, then its delay if it has one (R110). -/
def Record.events (r : Record) : List Event := .txn r.op r.args :: (r.delay.map Event.delay).toList

/-- The host operations: what a request can ask for (30_encoding.md R79). -/
def Instr.isHostOp : Instr → Bool
  | .nop000 | .init _ | .setWindow _ _ _ _ | .setOffsets _ _ | .setDisplay _ | .setTearing _ | .nop110 | .nop111 => true
  | .count _ | .cmd _ _ | .cmdd _ _ _ => false
  | .caset _ _ | .raset _ _ | .ramwr | .madctl | .dispon | .dispoff | .teon | .teoff => false
  | .configure _ _ | .sendCommand _ _ | .sendCommand0 _ | .write32 _ _ | .delay _ => false

/-- An event the block can emit: a configured clock is not zero and the mode is the constant one
(42_dispatcher_primitives.md R164), a transaction carries at most 127 argument bytes (30_encoding.md R89). -/
def Params.eventOk (p : Params) : Event → Prop
  | .cfg freq mode => freq ≠ 0 ∧ mode = p.transferMode
  | .txn _ args => args.length ≤ maxArgs
  | .delay _ => True

/-- An own command or primitive that an operation of the block can make. -/
def Params.sendable (p : Params) : Instr → Prop
  | .caset _ _ | .raset _ _ | .ramwr | .madctl | .dispon | .dispoff | .teon | .teoff => True
  | .configure f mode => f ≠ 0 ∧ mode = p.transferMode
  | .sendCommand _ args => args.length ≤ maxArgs
  | .sendCommand0 _ | .write32 _ _ | .delay _ => True
  | .count _ | .cmd _ _ | .cmdd _ _ _ => False
  | .nop000 | .init _ | .setWindow _ _ _ _ | .setOffsets _ _ | .setDisplay _ | .setTearing _ | .nop110 | .nop111 => False

end Sys2Proof

namespace Sys2Proof.Machine

/-! ### Numbers as bytes -/

/-- A 16-bit number as two bytes, the high one first. -/
def bytesOf16 (n : Nat) : List Byte := [BitVec.ofNat 8 (n / 256), BitVec.ofNat 8 n]

/-- A 32-bit number as four bytes, the highest first. -/
def bytesOf32 (n : Nat) : List Byte :=
  [BitVec.ofNat 8 (n / 16777216), BitVec.ofNat 8 (n / 65536), BitVec.ofNat 8 (n / 256), BitVec.ofNat 8 n]

/-! ### Tables and their events -/

/-- `Decode(ROM, base)` of 40_table_records.md R110 for the table at `base`. -/
def State.tableAt (s : State) (base : Nat) : List Record := tableFrom fun k => s.memRead (addrAdd s.cfg base k)

/-- The events of a table, in table order (R110). -/
def tableEvents (rs : List Record) : List Event := rs.flatMap Record.events

/-- The number of bytes of a table: the header byte and its records (30_encoding.md R89). -/
def tableSize (rs : List Record) : Nat := 1 + (rs.map Record.size).sum

/-- The `n` addresses from `a` up, wrapping (20_memory.md R60). -/
def addrsFrom (p : Params) (a n : Nat) : List Nat := (List.range n).map (addrAdd p a)

/-- The events one `INIT freq` emits (41_host_operations.md R131). -/
def State.initEvents (s : State) (freq : U32) : List Event :=
  [.cfg (clockFor s.cfg freq) s.cfg.transferMode] ++ tableEvents (s.tableAt s.cfg.table1Base) ++
    tableEvents (s.tableAt s.cfg.table2Base) ++ [.txn s.cfg.opcMadctl [s.cfg.madctlValue]]

/-- The table at `base` is well formed for the intended records `rs` (20_memory.md R68): the table memory holds their
serialisation from `base` up, without wrapping past the top address. -/
def State.WellFormedTable (s : State) (base : Nat) (rs : List Record) : Prop :=
  rs.length ≤ 255 ∧ (∀ r ∈ rs, r.wf) ∧ base + (encodeTable rs).length ≤ 2 ^ s.cfg.addrW ∧
    ∀ k < (encodeTable rs).length, s.rom.read (base + k) = (encodeTable rs).getD k 0

/-! ### Windows -/

/-- The part of the caller's contract that the window arithmetic rests on (70_reset_and_hazards.md R207): a size of at
least one, and no sum outside 0 to 65535, the offset taken as a signed number. -/
def WindowFits (offset : S16) (coord size : U16) : Prop :=
  1 ≤ size.toNat ∧ 0 ≤ (coord.toNat : Int) + offset.toInt ∧
    (coord.toNat : Int) + offset.toInt + size.toNat - 1 ≤ 65535

/-- The addressing window is open: the last event is the write-RAM command (10_state.md R35). -/
def State.WindowOpen (s : State) : Prop := s.trace.getLast? = some (.txn s.cfg.opcRamwr [])

/-! ### Reset -/

/-- The next step is a reset: an idle block takes the `rst` that is presented next (70_reset_and_hazards.md R200), a busy
one takes an asserted `rst` at once, past the requests that wait (60_exceptions.md R185; log entry 6). -/
abbrev State.takesReset (s : State) : Prop :=
  (s.phase = .idle ∧ s.inputs.head? = some .rst) ∨ (s.phase ≠ .idle ∧ Input.rst ∈ s.inputs)

/-! ### The events an instruction emits -/

/-- The events of an instruction executed in `s` when every event is completed, from the spec's rules for it. -/
def State.eventsOf (s : State) : Instr → List Event
  | .count _ | .nop000 | .nop110 | .nop111 | .setOffsets _ _ => []
  | .cmd op args => [.txn op args]
  | .cmdd op args ms => [.txn op args, .delay ms]
  | .init freq => s.initEvents freq
  | .setWindow x y w h =>
    let xs := windowStart x s.colStart
    let ys := windowStart y s.rowStart
    [.txn s.cfg.opcCaset (windowArgs xs (windowEnd xs w)), .txn s.cfg.opcRaset (windowArgs ys (windowEnd ys h)),
      .txn s.cfg.opcRamwr []]
  | .setDisplay en => [.txn (displayOpcode s.cfg en) []]
  | .setTearing en => [.txn (tearingOpcode s.cfg en) []]
  | .caset xs xe => [.txn s.cfg.opcCaset (windowArgs xs xe)]
  | .raset ys ye => [.txn s.cfg.opcRaset (windowArgs ys ye)]
  | .ramwr => [.txn s.cfg.opcRamwr []]
  | .madctl => [.txn s.cfg.opcMadctl [s.cfg.madctlValue]]
  | .dispon => [.txn s.cfg.opcDispon []]
  | .dispoff => [.txn s.cfg.opcDispoff []]
  | .teon => [.txn s.cfg.opcTeon []]
  | .teoff => [.txn s.cfg.opcTeoff []]
  | .configure f mode => [.cfg f mode]
  | .sendCommand op args => [.txn op args]
  | .sendCommand0 op => [.txn op []]
  | .write32 op v => [.txn op (be32 v)]
  | .delay ms => [.delay ms]

/-- The offsets after an operation, the only registers that shape the events of a later one (41_host_operations.md R132,
R133, R139). -/
def State.afterOffsets (s : State) : Instr → State
  | .setOffsets col row => { s with colStart := col, rowStart := row }
  | _ => s

/-- The events of a sequence of operations: the concatenation of their traces (41_host_operations.md R130). -/
def State.sessionEvents (s : State) : List Instr → List Event
  | [] => []
  | i :: rest => s.eventsOf i ++ (s.afterOffsets i).sessionEvents rest

/-- The registers a host can see or that shape what the block emits: every field but the six working registers of the
decoder (10_state.md R21). -/
def State.withoutWorking (s : State) : State :=
  { s with cursor := 0, remaining := 0, opcodeReg := 0, argSpecReg := 0, argIdx := 0, delayReg := 0 }

/-! ### The invariant -/

/-- The phases inside `INIT`, after its bus configuration. -/
def Phase.insideInit : Phase → Bool
  | .header _ | .records _ | .orientation => true
  | .idle | .running | .sending _ | .waiting => false

/-- What the running operation has still to send. -/
def Phase.pending : Phase → List Instr
  | .sending rest => rest
  | .idle | .running | .header _ | .records _ | .orientation | .waiting => []

/-- The invariant of the machine. -/
structure State.Inv (s : State) : Prop where
  /-- The parameters are as 00_scope.md R7 requires. -/
  params : s.cfg.wf
  /-- The table memory is in canonical form. -/
  romCanonical : s.rom.wf = true
  /-- It lists no address outside the address space (20_memory.md R51). -/
  romInSpace : ∀ c ∈ s.rom, c.1 < 2 ^ s.cfg.addrW
  /-- The cursor is an `ADDR_W`-bit address (10_state.md R22). -/
  cursorInSpace : s.cursor < 2 ^ s.cfg.addrW
  /-- Every address driven on `rom_addr` is one of the table memory (20_memory.md R67). -/
  readsInSpace : ∀ a ∈ s.reads, a < 2 ^ s.cfg.addrW
  /-- Once the device is ready its clock is set (R29, R31). -/
  readyHasClock : s.lifecycle = .ready → s.busFreq ≠ 0
  /-- Inside `INIT` the clock is set (R29, 41_host_operations.md R131). -/
  initHasClock : s.phase.insideInit = true → s.busFreq ≠ 0
  /-- Every event of the trace is one the block can emit. -/
  traceOk : ∀ e ∈ s.trace, s.cfg.eventOk e
  /-- What is still to be sent is an own command or a primitive. -/
  pendingOk : ∀ i ∈ s.phase.pending, s.cfg.sendable i
  /-- The block waits only for a collaborator that completes nothing more (42_dispatcher_primitives.md R166). -/
  waitingIsHung : s.phase = .waiting → s.willComplete = some 0

end Sys2Proof.Machine
end

