-- ==== Sys2Proof/Certificates/Slice0/Obligations.lean ====
section
/-! DEFINITION. The statements for the provers. Each is over every state, so over every value of the OPEN parameters and
every content of the table memory; the premise `s.Live` is the environment assumption of spec/42_dispatcher_primitives.md R166,
that the collaborators complete every event. -/

open Sys2Proof Sys2Proof.Machine

/-! ### Reset -/

/-- 70_reset_and_hazards.md R200: what reset leaves, and what it does not touch. The last three clauses are about the model's own
forms, and its choices: the inputs are a list, of which reset takes the `rst` and no request (log entry 6), completion is a
field (log entry 5), and the history of the table memory port starts afresh (log entry 16). -/
def Obligations.ResetRestoresTheConstructedDriver : Prop :=
  ∀ (s : State) (rest : List Input), s.phase = .idle → s.inputs = .rst :: rest →
    ∃ t, step s = .next t ∧ t.colStart = 0 ∧ t.rowStart = 0 ∧ t.xOrigin = 0 ∧ t.yOrigin = 0 ∧ t.busFreq = 0 ∧
      t.lifecycle = .uninitialized ∧ t.phase = .idle ∧ t.trace = [] ∧
      t.cfg = s.cfg ∧ t.rom = s.rom ∧ t.willComplete = s.willComplete ∧
      t.inputs = rest ∧ t.rspDone = false ∧ t.reads = []

/-- 60_exceptions.md R185, 70_reset_and_hazards.md R202, 42_dispatcher_primitives.md R166: reset wins over a running
operation and over a wait without end; it signals no completion. That it takes the first `rst` out of the list of inputs
and leaves every request in its place is the model's choice (log entry 6). Reset does not touch the collaborators (R200);
their state is not modelled (log entry 13), and that one that hung goes on hanging is the model's choice (log entry 19).
That the history of the table memory port starts afresh is the model's choice too (log entry 16). -/
def Obligations.ResetEndsARunningOperation : Prop :=
  ∀ s : State, s.phase ≠ .idle → Input.rst ∈ s.inputs →
    ∃ t, step s = .next t ∧ t.colStart = 0 ∧ t.rowStart = 0 ∧ t.xOrigin = 0 ∧ t.yOrigin = 0 ∧ t.busFreq = 0 ∧
      t.lifecycle = .uninitialized ∧ t.phase = .idle ∧ t.trace = [] ∧ t.rspDone = false ∧
      t.cfg = s.cfg ∧ t.rom = s.rom ∧ t.inputs = s.inputs.erase .rst ∧ t.willComplete = s.willComplete ∧ t.reads = []

/-- 10_state.md R38, 20_memory.md R51: the reset state itself; its table memory is the parameter `ROM`, at every address.
That the history of the table memory port is empty is the model's choice (log entry 16). -/
def Obligations.ResetStateIsAsConstructed : Prop :=
  State.reset.colStart = 0 ∧ State.reset.rowStart = 0 ∧ State.reset.xOrigin = 0 ∧ State.reset.yOrigin = 0 ∧
    State.reset.busFreq = 0 ∧ State.reset.lifecycle = .uninitialized ∧ State.reset.phase = .idle ∧
    State.reset.trace = [] ∧ State.reset.reads = [] ∧ ∀ a : BitVec Config.addrW, State.reset.memRead a.toNat = Config.rom a

/-- The invariant holds right after reset. -/
def Obligations.ResetStateSatisfiesInvariant : Prop := State.reset.Inv

/-! ### The table forms -/

/-- 40_table_records.md R101: `COUNT` completes in every state, loading the counter and stepping the cursor by one modulo
`2 ^ ADDR_W`; one byte is read, the one at the cursor (20_memory.md R67; log entry 16); nothing else changes. -/
def Obligations.CountLoadsTheRecordCounter : Prop :=
  ∀ (n : Byte) (s : State),
    exec (.count n) s = .next { s with
      remaining := n
      cursor := (s.cursor + 1) % 2 ^ s.cfg.addrW
      reads := s.reads ++ [s.cursor % 2 ^ s.cfg.addrW] }

/-- 40_table_records.md R102: `CMD` completes, emitting one transaction with its argument bytes and stepping the cursor past
them; no delay is emitted. The argument bytes are read in increasing address order, `cursor +_ADDR_W i` being on `rom_addr`
for the `i`-th (20_memory.md R54, R67; log entry 16). Nothing else changes. `argIdx` ends at the argument count (log entry 8, the
model's reading). -/
def Obligations.CmdEmitsOneTransaction : Prop :=
  ∀ (op : Byte) (args : List Byte) (s : State), s.Live → args.length ≤ 127 →
    ∃ t, exec (.cmd op args) s = .next t ∧ t.argIdx.toNat = args.length ∧
      t = { s with
            trace := s.trace ++ [.txn op args]
            cursor := (s.cursor + args.length) % 2 ^ s.cfg.addrW
            reads := s.reads ++ (List.range args.length).map fun i => (s.cursor + i) % 2 ^ s.cfg.addrW
            argIdx := t.argIdx }

/-- 40_table_records.md R103: `CMDD` completes, emitting the transaction and then the delay, whose number is the delay byte
unchanged; the cursor steps past the arguments and the delay byte, all of which are read, in increasing address order
(20_memory.md R54, R67; log entry 16); nothing else changes. -/
def Obligations.CmddEmitsTransactionThenDelay : Prop :=
  ∀ (op : Byte) (args : List Byte) (ms : Byte) (s : State), s.Live → args.length ≤ 127 →
    ∃ t, exec (.cmdd op args ms) s = .next t ∧ t.argIdx.toNat = args.length ∧
      t = { s with
            trace := s.trace ++ [.txn op args, .delay ms]
            cursor := (s.cursor + args.length + 1) % 2 ^ s.cfg.addrW
            reads := s.reads ++ (List.range (args.length + 1)).map fun i => (s.cursor + i) % 2 ^ s.cfg.addrW
            delayReg := ms
            argIdx := t.argIdx }

/-- 30_encoding.md R73: the two fields of the arg-spec byte, for all 256 values. -/
def Obligations.ArgSpecFieldsAreBitSevenAndLowSeven : Prop :=
  ∀ spec : Byte, argCount spec = spec.toNat % 128 ∧ (delayFollows spec = true ↔ 128 ≤ spec.toNat)

/-! ### The host operations -/

/-- 30_encoding.md R79 to R81: which operation each code asks for, and that it reads only its own fields. -/
def Obligations.RequestsReadOnlyTheirOwnFields : Prop :=
  ∀ r : Request,
    (r.op = 0b000#3 → decodeRequest r = .nop000) ∧ (r.op = 0b001#3 → decodeRequest r = .init r.freq) ∧
    (r.op = 0b010#3 → decodeRequest r = .setWindow r.x r.y r.w r.h) ∧
    (r.op = 0b011#3 → decodeRequest r = .setOffsets r.x r.y) ∧
    (r.op = 0b100#3 → decodeRequest r = .setDisplay r.en) ∧ (r.op = 0b101#3 → decodeRequest r = .setTearing r.en) ∧
    (r.op = 0b110#3 → decodeRequest r = .nop110) ∧ (r.op = 0b111#3 → decodeRequest r = .nop111)

/-- 41_host_operations.md R136: `NOP` completes with no effect under each of the three reserved codes, and a request with a
reserved code is `NOP` whatever its other fields. -/
def Obligations.ReservedCodesHaveNoEffect : Prop :=
  (∀ s : State, exec .nop000 s = .next s ∧ exec .nop110 s = .next s ∧ exec .nop111 s = .next s) ∧
    ∀ (r : Request) (s : State), r.op = 0b000#3 ∨ r.op = 0b110#3 ∨ r.op = 0b111#3 →
      exec (decodeRequest r) s = .next s

/-- 41_host_operations.md R132 and R137, 30_encoding.md R83: `SET_WINDOW` completes whatever its operands, emitting three
transactions whose coordinates are the sums modulo 65536, most significant byte first; it writes only the trace. -/
def Obligations.SetWindowEmitsThreeTransactions : Prop :=
  ∀ (x y w h : U16) (s : State), s.Live →
    let xs := (x.toNat + s.colStart.toNat) % 65536
    let ys := (y.toNat + s.rowStart.toNat) % 65536
    let xe := (xs + w.toNat + 65535) % 65536
    let ye := (ys + h.toNat + 65535) % 65536
    exec (.setWindow x y w h) s = .next { s with
      trace := s.trace ++ [.txn s.cfg.opcCaset (bytesOf16 xs ++ bytesOf16 xe),
        .txn s.cfg.opcRaset (bytesOf16 ys ++ bytesOf16 ye), .txn s.cfg.opcRamwr []] }

/-- 70_reset_and_hazards.md R207, 41_host_operations.md R137: inside the caller's contract the window arithmetic does not
wrap: the coordinates are the plain integers start plus signed offset, and that plus size less one. -/
def Obligations.WindowInsideContractDoesNotWrap : Prop :=
  ∀ (coord size : U16) (offset : S16), WindowFits offset coord size →
    ((windowStart coord offset).toNat : Int) = coord.toNat + offset.toInt ∧
      ((windowEnd (windowStart coord offset) size).toNat : Int) = coord.toNat + offset.toInt + size.toNat - 1

/-- 41_host_operations.md R133: `SET_OFFSETS` writes the pair and nothing else, emits nothing, in every state; the next
`SET_WINDOW` uses the new pair, whether or not an `INIT` comes between; the origin follows at the next `INIT`. -/
def Obligations.SetOffsetsIsUsedByTheNextWindow : Prop :=
  ∀ (col row : S16) (s : State),
    let window := fun (x y w h : U16) => [
      Event.txn s.cfg.opcCaset (windowArgs (x + col) (x + col + w - 1)),
      Event.txn s.cfg.opcRaset (windowArgs (y + row) (y + row + h - 1)), Event.txn s.cfg.opcRamwr []]
    ∃ t, exec (.setOffsets col row) s = .next t ∧ t = { s with colStart := col, rowStart := row } ∧
      (s.Live → ∀ x y w h, exec (.setWindow x y w h) t = .next { t with trace := s.trace ++ window x y w h }) ∧
      (s.Live → ∀ f, ∃ u, exec (.init f) t = .next u ∧ u.xOrigin = col ∧ u.yOrigin = row ∧
        ∀ x y w h, exec (.setWindow x y w h) u = .next { u with trace := u.trace ++ window x y w h })

/-- 41_host_operations.md R134: `SET_DISPLAY` emits one command without arguments, chosen by the operand, writes no
register, and closes an open window. -/
def Obligations.SetDisplaySendsOnOrOff : Prop :=
  ∀ (en : Bool) (s : State), s.Live →
    let op := if en then s.cfg.opcDispon else s.cfg.opcDispoff
    ∃ t, exec (.setDisplay en) s = .next t ∧ t = { s with trace := s.trace ++ [.txn op []] } ∧
      (op ≠ s.cfg.opcRamwr → ¬ t.WindowOpen)

/-- 41_host_operations.md R135: `SET_TEARING` emits one command without arguments, chosen by the operand, writes no
register, and closes an open window. -/
def Obligations.SetTearingSendsOnOrOff : Prop :=
  ∀ (en : Bool) (s : State), s.Live →
    let op := if en then s.cfg.opcTeon else s.cfg.opcTeoff
    ∃ t, exec (.setTearing en) s = .next t ∧ t = { s with trace := s.trace ++ [.txn op []] } ∧
      (op ≠ s.cfg.opcRamwr → ¬ t.WindowOpen)

/-- 41_host_operations.md R131: `INIT` completes for every operand, every content of the table memory and every state,
with exactly the events of its four stages in order; every register it writes, and that it writes no other but the
decoder's working registers. It reads the bytes of the first table and then those of the second (20_memory.md R54, R58,
R67); the history in which that is said is the model's form (log entry 16). -/
def Obligations.InitRunsBothTablesThenOrients : Prop :=
  ∀ (freq : U32) (s : State), s.Live →
    ∃ t, exec (.init freq) s = .next t ∧
      t.trace = s.trace ++ ([.cfg (if freq = 0 then s.cfg.defaultClockHz else freq) s.cfg.transferMode] ++
        tableEvents (s.tableAt s.cfg.table1Base) ++ tableEvents (s.tableAt s.cfg.table2Base) ++
        [.txn s.cfg.opcMadctl [s.cfg.madctlValue]]) ∧
      t.busFreq = (if freq = 0 then s.cfg.defaultClockHz else freq) ∧ t.xOrigin = s.colStart ∧ t.yOrigin = s.rowStart ∧
      t.lifecycle = .ready ∧ t.remaining = 0 ∧
      t.cursor = (s.cfg.table2Base + tableSize (s.tableAt s.cfg.table2Base)) % 2 ^ s.cfg.addrW ∧
      t.reads = s.reads ++ addrsFrom s.cfg s.cfg.table1Base (tableSize (s.tableAt s.cfg.table1Base)) ++
        addrsFrom s.cfg s.cfg.table2Base (tableSize (s.tableAt s.cfg.table2Base)) ∧
      t.colStart = s.colStart ∧ t.rowStart = s.rowStart ∧ t.cfg = s.cfg ∧ t.rom = s.rom ∧ t.phase = s.phase ∧
      t.rspDone = s.rspDone ∧ t.inputs = s.inputs ∧ t.willComplete = s.willComplete

/-! ### The block's own commands and the primitives -/

/-- 30_encoding.md R82 to R84: each of the eight own commands completes as one transaction with its fixed argument bytes;
nothing but the trace changes. -/
def Obligations.OwnCommandsAreOneTransactionEach : Prop :=
  ∀ s : State, s.Live →
    (∀ a b : U16, exec (.caset a b) s = .next { s with
      trace := s.trace ++ [.txn s.cfg.opcCaset (bytesOf16 a.toNat ++ bytesOf16 b.toNat)] }) ∧
    (∀ a b : U16, exec (.raset a b) s = .next { s with
      trace := s.trace ++ [.txn s.cfg.opcRaset (bytesOf16 a.toNat ++ bytesOf16 b.toNat)] }) ∧
    exec .ramwr s = .next { s with trace := s.trace ++ [.txn s.cfg.opcRamwr []] } ∧
    exec .madctl s = .next { s with trace := s.trace ++ [.txn s.cfg.opcMadctl [s.cfg.madctlValue]] } ∧
    exec .dispon s = .next { s with trace := s.trace ++ [.txn s.cfg.opcDispon []] } ∧
    exec .dispoff s = .next { s with trace := s.trace ++ [.txn s.cfg.opcDispoff []] } ∧
    exec .teon s = .next { s with trace := s.trace ++ [.txn s.cfg.opcTeon []] } ∧
    exec .teoff s = .next { s with trace := s.trace ++ [.txn s.cfg.opcTeoff []] }

/-- 42_dispatcher_primitives.md R160, R161, R163, R164: each primitive but `Write32` completes as one event carrying its
operands unchanged; nothing but the trace changes. -/
def Obligations.PrimitivesAreOneEventEach : Prop :=
  ∀ s : State, s.Live →
    (∀ op args, exec (.sendCommand op args) s = .next { s with trace := s.trace ++ [.txn op args] }) ∧
    (∀ op, exec (.sendCommand0 op) s = .next { s with trace := s.trace ++ [.txn op []] }) ∧
    (∀ ms, exec (.delay ms) s = .next { s with trace := s.trace ++ [.delay ms] }) ∧
    (∀ f mode, exec (.configure f mode) s = .next { s with trace := s.trace ++ [.cfg f mode] })

/-- 42_dispatcher_primitives.md R162: `Write32` completes as one transaction with its command byte and the four bytes of its
value, the highest first; nothing but the trace changes. -/
def Obligations.Write32IsBigEndianUnderOneCommand : Prop :=
  ∀ (op : Byte) (v : U32) (s : State), s.Live →
    exec (.write32 op v) s = .next { s with trace := s.trace ++ [.txn op (bytesOf32 v.toNat)] }

/-- 30_encoding.md R85, 42_dispatcher_primitives.md R161, R162: which of the three call forms made a transaction is not
observable: an instruction and the form its encoding is read back as have the same effect. -/
def Obligations.CallFormsOfATransactionAgree : Prop :=
  ∀ (i : Instr) (s : State), exec i.normal s = exec i s

/-! ### Decode and encode -/

/-- Words written out from the encodings of spec/30_encoding.md and 42_dispatcher_primitives.md R167, one or more of each format:
what the decoder reads in them. -/
def Obligations.WordsOfTheEncodingsDecode : Prop :=
  (∀ p, decode p (.header 0xFF#8) = .ok (.count 255)) ∧
  (∀ p, decode p (.record [0xB1#8, 0x03#8, 0x01#8, 0x2C#8, 0x2D#8]) = .ok (.cmd 0xB1 [0x01, 0x2C, 0x2D])) ∧
  (∀ p, decode p (.record [0x36#8, 0x81#8, 0xC8#8, 0x0A#8]) = .ok (.cmdd 0x36 [0xC8] 10)) ∧
  (∀ p, decode p (.request ⟨0b011#3, 0xFFFF#16, 0x8000#16, 7#16, 8#16, 9#32, true⟩) = .ok (.setOffsets 0xFFFF 0x8000)) ∧
  (∀ p : Params, p.opcodesDistinct →
    decode p (.command [p.opcRaset, 0x00#8, 0x14#8, 0x00#8, 0x18#8]) = .ok (.raset 20 24)) ∧
  (∀ p, decode p (.beats [.cmd 0xB1#8 3#7, .data 0x01#8, .data 0x2C#8, .data 0x2D#8]) =
    .ok (.sendCommand 0xB1 [0x01, 0x2C, 0x2D]))

/-- Decode and encode agree: for every parameter value with pairwise different own opcodes and every well-formed
instruction, with every operand, decoding its encoding gives the instruction back. The one exception is a `SendCommand` of
no or of four argument bytes, which has the encoding of a `SendCommand0` or a `Write32` (30_encoding.md R85, R87): it is
read back as that, by the model's choice between the two spellings (log entry 12). -/
def Obligations.DecodeOfEncodeIsTheInstruction : Prop :=
  (∀ (p : Params) (i : Instr), p.opcodesDistinct → i.wellFormed = true → decode p (encode p i) = .ok i.normal) ∧
    (∀ i : Instr, (∀ op args, i = .sendCommand op args → args.length ≠ 0 ∧ args.length ≠ 4) → i.normal = i) ∧
    (∀ op : Byte, (Instr.sendCommand op []).normal = .sendCommand0 op) ∧
    ∀ (op : Byte) (v : U32), (Instr.sendCommand op (bytesOf32 v.toNat)).normal = .write32 op v

/-- 30_encoding.md R70, 40_table_records.md R110: a list of at most 255 records with at most 127 arguments each is read back
from its serialisation, with whatever stands after it untouched. -/
def Obligations.TableSerialisationReadsBack : Prop :=
  ∀ (rs : List Record) (rest : List Byte), rs.length ≤ 255 → (∀ r ∈ rs, r.wf) →
    decodeTable (encodeTable rs ++ rest) = .ok (rs, rest)

/-- 30_encoding.md R70, R74: bytes read as one whole record are that record's serialisation: no bit is dropped. -/
def Obligations.RecordBytesAreTheRecordsSerialisation : Prop :=
  ∀ (bytes : List Byte) (r : Record), decodeRecord bytes = .ok (r, []) → encodeRecord r = bytes

/-- 30_encoding.md R77, R88: the bytes at the cursor, as many as the second of them announces, are always one record; no
byte value is rejected in any position. -/
def Obligations.EveryByteSequenceDecodes : Prop :=
  ∀ s : State, s.recordBytes.length = recordLength (s.byteAhead 1) ∧
    decode s.cfg (.record s.recordBytes) = .ok s.recordHere.toInstr

/-- 30_encoding.md R89: how long a table can be, read from any place of any table memory. -/
def Obligations.TableSizeIsBounded : Prop :=
  ∀ (s : State) (base : Nat),
    let rs := s.tableAt base
    rs.length = (s.memRead (base % 2 ^ s.cfg.addrW)).toNat ∧ 1 ≤ tableSize rs ∧ tableSize rs ≤ 33151 ∧
      ∀ r ∈ rs, r.args.length ≤ 127

/-- 42_dispatcher_primitives.md R167: the beats of an event the block can emit are one whole primitive, of exactly that
event. -/
def Obligations.BeatsCarryExactlyTheirEvent : Prop :=
  ∀ (p : Params) (e : Event), p.eventOk e →
    ∃ i, decodeBeats e.beats = .ok i ∧ Event.ofPrimitive i = some e

/-- 42_dispatcher_primitives.md R167: the signals of each kind of beat that the rule gives it, and the beats of each event. A
signal the rule does not give a kind is a free value of the model (log entry 17), of which nothing is said. -/
def Obligations.BeatSignalsOfEachKind : Prop :=
  (∀ (n : Nat) (f : U32) (mode : Mode),
    ((Beat.cfg f mode).signals n).kind = 0b00#2 ∧ ((Beat.cfg f mode).signals n).data = f ∧
      ((Beat.cfg f mode).signals n).mode = mode) ∧
  (∀ (n : Nat) (op : Byte) (len : BitVec 7),
    ((Beat.cmd op len).signals n).kind = 0b01#2 ∧ ((Beat.cmd op len).signals n).data.toNat % 256 = op.toNat ∧
      ((Beat.cmd op len).signals n).len = len) ∧
  (∀ (n : Nat) (b : Byte),
    ((Beat.data b).signals n).kind = 0b10#2 ∧ ((Beat.data b).signals n).data.toNat % 256 = b.toNat) ∧
  (∀ (n : Nat) (ms : Byte),
    ((Beat.delay ms).signals n).kind = 0b11#2 ∧ ((Beat.delay ms).signals n).data.toNat % 256 = ms.toNat) ∧
  (∀ f mode, (Event.cfg f mode).beats = [.cfg f mode]) ∧ (∀ ms, (Event.delay ms).beats = [.delay ms]) ∧
  ∀ (op : Byte) (args : List Byte), args.length ≤ 127 →
    ∃ len : BitVec 7, len.toNat = args.length ∧ (Event.txn op args).beats = .cmd op len :: args.map .data

/-! ### A step runs the decoded instruction -/

/-- 41_host_operations.md R130, R142: an idle block takes the request presented, runs the operation its fields decode to,
and completes: `Idle` again with the completion signalled, unless it waits for a collaborator. -/
def Obligations.StepRunsTheRequestedOperation : Prop :=
  ∀ (s : State) (r : Request) (rest : List Input), s.phase = .idle → s.inputs = .request r :: rest →
    ∀ i, decode s.cfg (.request r) = .ok i →
      ∃ t, exec i { s with inputs := rest, phase := .running, rspDone := false } = .next t ∧
        step s = .next (if t.phase = .waiting then t else { t with phase := .idle, rspDone := true })

/-- 40_table_records.md R100, R106: inside `INIT` a step fetches the table form at the cursor and runs it: the header byte
as `COUNT`, then each record. The bytes at the cursor decode to the instruction whose `exec` the step is, the record's two
head bytes being read and loaded before it and the record counter stepped down after it. The history of reads is the
model's form (log entry 16), the phases are its split of `Busy` (log entry 4). -/
def Obligations.StepRunsTheTableFormAtTheCursor : Prop :=
  ∀ (s : State) (t : Table), Input.rst ∉ s.inputs →
    (s.phase = .header t → ∀ i, decode s.cfg (.header (s.byteAhead 0)) = .ok i →
      step s = mapNext (State.andThen · (State.enterRecords t)) (exec i { s with rspDone := false })) ∧
    (s.phase = .records t → s.remaining ≠ 0 → ∀ i, decode s.cfg (.record s.recordBytes) = .ok i →
      step s = mapNext (State.andThen · State.endRecord) (exec i { s with
        rspDone := false
        opcodeReg := s.byteAhead 0
        argSpecReg := s.byteAhead 1
        cursor := (s.cursor + 2) % 2 ^ s.cfg.addrW
        reads := s.reads ++ [s.cursor % 2 ^ s.cfg.addrW, (s.cursor + 1) % 2 ^ s.cfg.addrW] }))

/-- A busy block with own commands or primitives still to send runs the next one, then the rest; after the last the
operation has completed. -/
def Obligations.StepRunsTheNextCommandToSend : Prop :=
  ∀ (s : State) (i : Instr) (rest : List Instr), Input.rst ∉ s.inputs → s.phase = .sending (i :: rest) →
    ∃ t, exec i { s with rspDone := false } = .next t ∧
      step s = .next (if t.phase = .waiting then t
        else if rest = [] then { t with phase := .idle, rspDone := true }
        else { t with phase := .sending rest })

/-- 40_table_records.md R107, 30_encoding.md R74: one record at the cursor of any table memory, byte by byte: the opcode, the
argument bytes in increasing address order and nothing else go on the bus; the delay byte follows them; the cursor steps
over exactly the record's bytes, and those bytes are what is read, each once, in increasing address order (20_memory.md R58,
R67; log entry 16). -/
def Obligations.RecordStepSlicesItsBytes : Prop :=
  ∀ (s : State) (t : Table), s.Live → Input.rst ∉ s.inputs → s.phase = .records t → s.remaining ≠ 0 →
    let rom := fun k => s.rom.read ((s.cursor + k) % 2 ^ s.cfg.addrW)
    let count := (rom 1).toNat % 128
    ∃ u, step s = .next u ∧
      u.trace = s.trace ++ [.txn (rom 0) ((List.range count).map fun i => rom (2 + i))] ++
        (if 128 ≤ (rom 1).toNat then [.delay (rom (2 + count))] else []) ∧
      u.cursor = (s.cursor + 2 + count + (if 128 ≤ (rom 1).toNat then 1 else 0)) % 2 ^ s.cfg.addrW ∧
      u.reads = s.reads ++ (List.range (2 + count + (if 128 ≤ (rom 1).toNat then 1 else 0))).map
        (fun k => (s.cursor + k) % 2 ^ s.cfg.addrW) ∧
      u.remaining = s.remaining - 1 ∧ u.opcodeReg = rom 0 ∧ u.argSpecReg = rom 1 ∧
      u.delayReg = (if 128 ≤ (rom 1).toNat then rom (2 + count) else s.delayReg) ∧
      u.colStart = s.colStart ∧ u.rowStart = s.rowStart ∧ u.xOrigin = s.xOrigin ∧ u.yOrigin = s.yOrigin ∧
      u.busFreq = s.busFreq ∧ u.lifecycle = s.lifecycle ∧ u.phase = s.phase ∧ u.cfg = s.cfg ∧ u.rom = s.rom

/-- 70_reset_and_hazards.md R201: an idle block that is asked nothing does nothing: it emits no event and waits. -/
def Obligations.IdleBlockWaitsForARequest : Prop :=
  ∀ s : State, s.phase = .idle → s.inputs = [] → step s = .next { s with rspDone := false }

/-- 41_host_operations.md R130: while the block is busy a request is not accepted and not lost: a step that is no reset
leaves what the host presents as it is. -/
def Obligations.BusyBlockAcceptsNoRequest : Prop :=
  ∀ s : State, s.phase ≠ .idle → Input.rst ∉ s.inputs → ∃ t, step s = .next t ∧ t.inputs = s.inputs

/-- 42_dispatcher_primitives.md R166: a block whose collaborator never completes stays busy for ever: without a reset a
step changes nothing. -/
def Obligations.WaitingBlockStaysBusyForEver : Prop :=
  ∀ (s : State) (k : Nat), s.phase = .waiting → Input.rst ∉ s.inputs →
    Sys2Proof.core.run (k + 1) s = .next { s with rspDone := false }

/-! ### Properties of every instruction and every step -/

/-- 60_exceptions.md R180: nothing is raised and nothing is refused, by any instruction in any state, or by any step. -/
def Obligations.NothingFaultsOrIsRefused : Prop :=
  (∀ (i : Instr) (s : State), ∃ t, exec i s = .next t) ∧ ∀ s : State, ∃ t, step s = .next t

/-- 20_memory.md R62, 41_host_operations.md R142: every instruction completes, with exactly its own events appended to the
trace in order, and the block ready for the next. -/
def Obligations.EveryInstructionEmitsItsEvents : Prop :=
  ∀ (i : Instr) (s : State), s.Live →
    ∃ t, exec i s = .next t ∧ t.trace = s.trace ++ s.eventsOf i ∧ t.phase = s.phase ∧ t.willComplete = none

/-- 42_dispatcher_primitives.md R166, 70_reset_and_hazards.md R202: if the collaborators complete only `k` more events, an
instruction that emits more stops after handing over the next one and waits: of the registers only `busFreq` and the
working registers of the decoder can have been written, so an `INIT` that hangs leaves the origins and the lifecycle as
they were (41_host_operations.md R131). One that emits no more does what it does when every event is completed. How
completions are counted is the model's choice (log entry 7). -/
def Obligations.HungOperationEmitsAPrefix : Prop :=
  ∀ (i : Instr) (s : State) (k : Nat), s.phase ≠ .waiting → s.willComplete = some k →
    ∃ t, exec i s = .next t ∧
      if k < (s.eventsOf i).length then
        t.trace = s.trace ++ (s.eventsOf i).take (k + 1) ∧ t.phase = .waiting ∧ t.willComplete = some 0 ∧
          t.colStart = s.colStart ∧ t.rowStart = s.rowStart ∧ t.xOrigin = s.xOrigin ∧ t.yOrigin = s.yOrigin ∧
          t.lifecycle = s.lifecycle ∧
          t.busFreq = (match i with | .init freq => if freq = 0 then s.cfg.defaultClockHz else freq | _ => s.busFreq) ∧
          t.cfg = s.cfg ∧ t.rom = s.rom ∧ t.inputs = s.inputs ∧ t.rspDone = s.rspDone
      else
        ∃ u, exec i { s with willComplete := none } = .next u ∧ u.trace = s.trace ++ s.eventsOf i ∧
          u.phase = s.phase ∧ t = { u with willComplete := some (k - (s.eventsOf i).length) }

/-- 10_state.md R20, R27 to R31: each register has the writers the spec gives it. The offsets change only by `SET_OFFSETS`,
the status registers only by `INIT`, the working registers only by `INIT` and the table forms, which alone read the table
memory (20_memory.md R54; the history of reads is the model's form, log entry 16); no instruction changes the
parameters, the table memory or what the host presents. -/
def Obligations.RegistersChangeOnlyByTheirWriters : Prop :=
  ∀ (i : Instr) (s t : State), exec i s = .next t →
    ((∀ c r, i ≠ .setOffsets c r) → t.colStart = s.colStart ∧ t.rowStart = s.rowStart) ∧
    ((∀ f, i ≠ .init f) →
      t.xOrigin = s.xOrigin ∧ t.yOrigin = s.yOrigin ∧ t.busFreq = s.busFreq ∧ t.lifecycle = s.lifecycle) ∧
    ((∀ f, i ≠ .init f) → (∀ n, i ≠ .count n) → (∀ o a, i ≠ .cmd o a) → (∀ o a m, i ≠ .cmdd o a m) →
      t.cursor = s.cursor ∧ t.remaining = s.remaining ∧ t.opcodeReg = s.opcodeReg ∧ t.argSpecReg = s.argSpecReg ∧
      t.argIdx = s.argIdx ∧ t.delayReg = s.delayReg ∧ t.reads = s.reads) ∧
    t.cfg = s.cfg ∧ (∀ a, t.rom.read a = s.rom.read a) ∧ t.inputs = s.inputs ∧ t.rspDone = s.rspDone

/-- 10_state.md R36, 20_memory.md R53: the table memory and the parameters are fixed for a run: no step changes either,
reset among them. -/
def Obligations.StepKeepsTableMemoryAndParameters : Prop :=
  ∀ (s t : State), step s = .next t → t.cfg = s.cfg ∧ t.rom = s.rom ∧ ∀ a, t.memRead a = s.memRead a

/-- 10_state.md R33: nothing removes or reorders an element of the trace: a step that is no reset only appends. -/
def Obligations.TraceOnlyGrows : Prop :=
  ∀ (s t : State), step s = .next t → ¬ s.takesReset → ∃ es, t.trace = s.trace ++ es

/-- 41_host_operations.md R138, 10_state.md R31: `INIT` is the only instruction that changes the lifecycle, and it makes it
`Ready`, from either state; no step that is no reset takes `Ready` back, and one that is does. -/
def Obligations.ReadyIsLeftOnlyByReset : Prop :=
  (∀ (i : Instr) (s t : State), exec i s = .next t → t.lifecycle ≠ s.lifecycle →
    (∃ f, i = .init f) ∧ t.lifecycle = .ready) ∧
  (∀ (f : U32) (s : State), s.Live → ∃ t, exec (.init f) s = .next t ∧ t.lifecycle = .ready) ∧
  (∀ (s t : State), step s = .next t → s.lifecycle = .ready → (t.lifecycle = .ready ↔ ¬ s.takesReset))

/-- 41_host_operations.md R140: no operation is gated by the lifecycle: whatever the bit is, an instruction emits the same
events and leaves every other register the same. -/
def Obligations.LifecycleGatesNothing : Prop :=
  ∀ (i : Instr) (s : State) (l : Lifecycle) (t u : State), exec i s = .next t →
    exec i { s with lifecycle := l } = .next u → { u with lifecycle := l } = { t with lifecycle := l }

/-- 10_state.md R21, R38: the working registers of the decoder, and so the model's choice of their reset values (log
entry 1), cannot affect anything observable: from two states that differ only in them every host operation leaves two
states that differ only in them. -/
def Obligations.WorkingRegistersAreNotObservable : Prop :=
  ∀ (i : Instr) (s s' t t' : State), i.isHostOp = true → s.withoutWorking = s'.withoutWorking →
    exec i s = .next t → exec i s' = .next t' → t.withoutWorking = t'.withoutWorking

/-- 41_host_operations.md R139: a second `INIT` with the same operand emits the same events again, reads the same
bytes again, and leaves every register as the first left it; the events and the bytes are the same from any other state
with the same parameters and table memory. That a later `INIT` reads the tables again from the start is 20_memory.md R58;
the history in which it is said is the model's form (log entry 16). -/
def Obligations.SecondInitRepeatsTheFirst : Prop :=
  ∀ (freq : U32) (s s' : State), s.Live → s'.Live → s'.cfg = s.cfg → s'.rom = s.rom →
    ∃ t u t' events addrs, exec (.init freq) s = .next t ∧ exec (.init freq) t = .next u ∧
      exec (.init freq) s' = .next t' ∧ t.trace = s.trace ++ events ∧ t'.trace = s'.trace ++ events ∧
      t.reads = s.reads ++ addrs ∧ t'.reads = s'.reads ++ addrs ∧
      u = { t with trace := t.trace ++ events, reads := t.reads ++ addrs }

/-- 10_state.md R35, 41_host_operations.md R144: when the addressing window is open. `SET_WINDOW` opens it; `SET_OFFSETS`
and `NOP` leave it as it is; `INIT` closes it, and so do the toggles where their opcode is not that of write-RAM. -/
def Obligations.WindowClosesWithTheNextCommand : Prop :=
  ∀ (s t : State) (i : Instr), s.Live → exec i s = .next t →
    ((∃ x y w h, i = .setWindow x y w h) → t.WindowOpen) ∧
    ((∃ c r, i = .setOffsets c r) ∨ i = .nop000 ∨ i = .nop110 ∨ i = .nop111 → (t.WindowOpen ↔ s.WindowOpen)) ∧
    ((∃ f, i = .init f) → ¬ t.WindowOpen) ∧
    (∀ en, i = .setDisplay en ∨ i = .setTearing en → s.cfg.opcodesDistinct → ¬ t.WindowOpen)

/-- 70_reset_and_hazards.md R211: the number of events an operation emits, when every one is completed. -/
def Obligations.EventsOfAnOperationAreBounded : Prop :=
  ∀ (i : Instr) (s t : State), s.Live → exec i s = .next t →
    ∃ es, t.trace = s.trace ++ es ∧
      ((∃ c r, i = .setOffsets c r) ∨ i = .nop000 ∨ i = .nop110 ∨ i = .nop111 → es.length = 0) ∧
      (∀ en, i = .setDisplay en ∨ i = .setTearing en → es.length = 1) ∧
      (∀ x y w h, i = .setWindow x y w h → es.length = 3) ∧
      (∀ f, i = .init f → 2 ≤ es.length ∧ es.length ≤ 1022)

/-- 40_table_records.md R104, R105: Replay of any table memory runs its loop exactly as often as the header byte says, ends
with `remaining` 0 and the cursor one past the last byte it consumed, and emits one transaction per record. -/
def Obligations.ReplayRunsHeaderManyRecords : Prop :=
  ∀ (s : State) (t : Table), s.Live →
    let base := tableBase s.cfg t
    let rs := s.tableAt base
    rs.length = (s.memRead (base % 2 ^ s.cfg.addrW)).toNat ∧
      (s.replay t).trace = s.trace ++ rs.flatMap (fun r => .txn r.op r.args :: (r.delay.map Event.delay).toList) ∧
      (s.replay t).remaining = 0 ∧
      (s.replay t).cursor = (base + 1 + (rs.map fun r => 2 + r.args.length + (if r.delay.isSome then 1 else 0)).sum) %
        2 ^ s.cfg.addrW

/-- 20_memory.md R54, R58, R60, R67, 40_table_records.md R104: what the table memory port carries during a Replay of any table
memory: the addresses of the table's bytes from its base up, wrapping, each once, in increasing order, at most 33151 of
them, and beside each the byte the memory holds there. Nothing of the rest of the memory is read. The history of the port
is the model's form (log entry 16). -/
def Obligations.ReplayReadsExactlyItsTable : Prop :=
  ∀ (s : State) (t : Table), s.Live →
    let base := tableBase s.cfg t
    let size := 1 + ((s.tableAt base).map fun r => 2 + r.args.length + (if r.delay.isSome then 1 else 0)).sum
    (s.replay t).romPort = s.romPort ++
        (List.range size).map (fun k => ((base + k) % 2 ^ s.cfg.addrW, s.rom.read ((base + k) % 2 ^ s.cfg.addrW))) ∧
      size ≤ 33151

/-- 20_memory.md R54, R59, 40_table_records.md R110: a Replay depends on no byte but those it reads: under any other table
memory that agrees with this one there it does the same. -/
def Obligations.ReplayDependsOnlyOnTheBytesItReads : Prop :=
  ∀ (s : State) (t : Table) (m : Memory), s.Live →
    (∀ k < tableSize (s.tableAt (tableBase s.cfg t)),
      m.read ((tableBase s.cfg t + k) % 2 ^ s.cfg.addrW) = s.rom.read ((tableBase s.cfg t + k) % 2 ^ s.cfg.addrW)) →
    State.replay t { s with rom := m } = { s.replay t with rom := m }

/-! ### Headline results -/

/-- Every step keeps the invariant: the table memory canonical, the cursor an address, every address of the history of reads
one too (the model's form, log entry 16), the clock set once the device is ready, every event of the trace one
the block can emit. -/
def Obligations.StepKeepsInvariant : Prop :=
  ∀ (s t : State), s.Inv → step s = .next t → t.Inv

/-- 20_memory.md R68, 40_table_records.md R110: a well-formed table decodes to exactly the records its author meant. -/
def Obligations.WellFormedTableDecodesToItsRecords : Prop :=
  ∀ (s : State) (base : Nat) (rs : List Record), s.WellFormedTable base rs → s.tableAt base = rs

/-- 60_exceptions.md R188, 41_host_operations.md R131, R132: well-formed tables and in-range coordinates always succeed with
the exact bus traffic: `INIT` and then `SET_WINDOW` emit the authored records of both tables and the plain coordinates. -/
def Obligations.BringUpTrafficIsExact : Prop :=
  ∀ (s : State) (rs₁ rs₂ : List Record) (freq : U32) (x y w h : U16), s.Live →
    s.WellFormedTable s.cfg.table1Base rs₁ → s.WellFormedTable s.cfg.table2Base rs₂ →
    WindowFits s.colStart x w → WindowFits s.rowStart y h →
    ∃ t u, exec (.init freq) s = .next t ∧ exec (.setWindow x y w h) t = .next u ∧
      let xs := ((x.toNat : Int) + s.colStart.toInt).toNat
      let ys := ((y.toNat : Int) + s.rowStart.toInt).toNat
      u.trace = s.trace ++
        ([.cfg (if freq = 0 then s.cfg.defaultClockHz else freq) s.cfg.transferMode] ++ rs₁.flatMap Record.events ++
          rs₂.flatMap Record.events ++
          [.txn s.cfg.opcMadctl [s.cfg.madctlValue],
           .txn s.cfg.opcCaset (bytesOf16 xs ++ bytesOf16 (xs + w.toNat - 1)),
           .txn s.cfg.opcRaset (bytesOf16 ys ++ bytesOf16 (ys + h.toNat - 1)), .txn s.cfg.opcRamwr []])

/-- 10_state.md R34, decision D21: the two grains of `INIT` agree. From the state its bus configuration leaves, with the
cursor at the first table, steps of one table form each end in the state that the one step of the whole operation ends
in. -/
def Obligations.StepwiseInitAgreesWithAtomicInit : Prop :=
  ∀ (freq : U32) (s t : State), s.Live → s.rspDone = false → Input.rst ∉ s.inputs →
    exec (.init freq) { s with phase := .running } = .next t →
    ∃ k, Sys2Proof.core.run k { s.configureBus freq with phase := .header .first, cursor := s.cfg.table1Base } =
      .next { t with phase := .idle, rspDone := true }

/-- 20_memory.md R64, 41_host_operations.md R132: the two grains of `SET_WINDOW` agree: its three commands sent one a step
end in the state that the one step of the whole operation ends in. -/
def Obligations.StepwiseWindowAgreesWithAtomicWindow : Prop :=
  ∀ (x y w h : U16) (s t : State), s.Live → s.rspDone = false → Input.rst ∉ s.inputs →
    exec (.setWindow x y w h) { s with phase := .running } = .next t →
    Sys2Proof.core.run 3 { s with
      phase := .sending [.caset (x + s.colStart) (x + s.colStart + w - 1), .raset (y + s.rowStart) (y + s.rowStart + h - 1),
        .ramwr] } = .next { t with phase := .idle, rspDone := true }

/-- 41_host_operations.md R130: the operations of one instance are totally ordered and each is atomic: as many steps as
there are requests run them all, in order, and the trace is the concatenation of their traces. -/
def Obligations.RequestsRunInOrderOneAStep : Prop :=
  ∀ (rs : List Request) (s : State) (rest : List Input), s.Live → s.phase = .idle → s.inputs = rs.map .request ++ rest →
    ∃ t, Sys2Proof.core.run rs.length s = .next t ∧ t.phase = .idle ∧ t.inputs = rest ∧
      t.trace = s.trace ++ s.sessionEvents (rs.map decodeRequest)
end

