-- ==== Sys2Proof/Laws/State.lean ====
section
/-! SUPPORT. One lemma per field per update of the state, each true by rfl. -/

namespace Sys2Proof.Machine

/-! ### `State.emit` -/

@[simp] theorem State.emit_cfg (e : Event) (s : State) : (s.emit e).cfg = s.cfg := rfl
@[simp] theorem State.emit_rom (e : Event) (s : State) : (s.emit e).rom = s.rom := rfl
@[simp] theorem State.emit_colStart (e : Event) (s : State) : (s.emit e).colStart = s.colStart := rfl
@[simp] theorem State.emit_rowStart (e : Event) (s : State) : (s.emit e).rowStart = s.rowStart := rfl
@[simp] theorem State.emit_xOrigin (e : Event) (s : State) : (s.emit e).xOrigin = s.xOrigin := rfl
@[simp] theorem State.emit_yOrigin (e : Event) (s : State) : (s.emit e).yOrigin = s.yOrigin := rfl
@[simp] theorem State.emit_busFreq (e : Event) (s : State) : (s.emit e).busFreq = s.busFreq := rfl
@[simp] theorem State.emit_lifecycle (e : Event) (s : State) : (s.emit e).lifecycle = s.lifecycle := rfl
@[simp] theorem State.emit_cursor (e : Event) (s : State) : (s.emit e).cursor = s.cursor := rfl
@[simp] theorem State.emit_remaining (e : Event) (s : State) : (s.emit e).remaining = s.remaining := rfl
@[simp] theorem State.emit_opcodeReg (e : Event) (s : State) : (s.emit e).opcodeReg = s.opcodeReg := rfl
@[simp] theorem State.emit_argSpecReg (e : Event) (s : State) : (s.emit e).argSpecReg = s.argSpecReg := rfl
@[simp] theorem State.emit_argIdx (e : Event) (s : State) : (s.emit e).argIdx = s.argIdx := rfl
@[simp] theorem State.emit_delayReg (e : Event) (s : State) : (s.emit e).delayReg = s.delayReg := rfl
@[simp] theorem State.emit_phase (e : Event) (s : State) :
    (s.emit e).phase = if s.willComplete = some 0 then .waiting else s.phase := rfl
@[simp] theorem State.emit_trace (e : Event) (s : State) :
    (s.emit e).trace = s.trace ++ [e] := rfl
@[simp] theorem State.emit_reads (e : Event) (s : State) : (s.emit e).reads = s.reads := rfl
@[simp] theorem State.emit_rspDone (e : Event) (s : State) : (s.emit e).rspDone = s.rspDone := rfl
@[simp] theorem State.emit_inputs (e : Event) (s : State) : (s.emit e).inputs = s.inputs := rfl
@[simp] theorem State.emit_willComplete (e : Event) (s : State) :
    (s.emit e).willComplete = s.willComplete.map (· - 1) := rfl

/-! ### `State.readAhead` -/

@[simp] theorem State.readAhead_cfg (n : Nat) (s : State) : (s.readAhead n).cfg = s.cfg := rfl
@[simp] theorem State.readAhead_rom (n : Nat) (s : State) : (s.readAhead n).rom = s.rom := rfl
@[simp] theorem State.readAhead_colStart (n : Nat) (s : State) : (s.readAhead n).colStart = s.colStart := rfl
@[simp] theorem State.readAhead_rowStart (n : Nat) (s : State) : (s.readAhead n).rowStart = s.rowStart := rfl
@[simp] theorem State.readAhead_xOrigin (n : Nat) (s : State) : (s.readAhead n).xOrigin = s.xOrigin := rfl
@[simp] theorem State.readAhead_yOrigin (n : Nat) (s : State) : (s.readAhead n).yOrigin = s.yOrigin := rfl
@[simp] theorem State.readAhead_busFreq (n : Nat) (s : State) : (s.readAhead n).busFreq = s.busFreq := rfl
@[simp] theorem State.readAhead_lifecycle (n : Nat) (s : State) : (s.readAhead n).lifecycle = s.lifecycle := rfl
@[simp] theorem State.readAhead_cursor (n : Nat) (s : State) : (s.readAhead n).cursor = s.cursor := rfl
@[simp] theorem State.readAhead_remaining (n : Nat) (s : State) : (s.readAhead n).remaining = s.remaining := rfl
@[simp] theorem State.readAhead_opcodeReg (n : Nat) (s : State) : (s.readAhead n).opcodeReg = s.opcodeReg := rfl
@[simp] theorem State.readAhead_argSpecReg (n : Nat) (s : State) : (s.readAhead n).argSpecReg = s.argSpecReg := rfl
@[simp] theorem State.readAhead_argIdx (n : Nat) (s : State) : (s.readAhead n).argIdx = s.argIdx := rfl
@[simp] theorem State.readAhead_delayReg (n : Nat) (s : State) : (s.readAhead n).delayReg = s.delayReg := rfl
@[simp] theorem State.readAhead_phase (n : Nat) (s : State) : (s.readAhead n).phase = s.phase := rfl
@[simp] theorem State.readAhead_trace (n : Nat) (s : State) : (s.readAhead n).trace = s.trace := rfl
@[simp] theorem State.readAhead_reads (n : Nat) (s : State) :
    (s.readAhead n).reads = s.reads ++ (List.range n).map s.romAddr := rfl
@[simp] theorem State.readAhead_rspDone (n : Nat) (s : State) : (s.readAhead n).rspDone = s.rspDone := rfl
@[simp] theorem State.readAhead_inputs (n : Nat) (s : State) : (s.readAhead n).inputs = s.inputs := rfl
@[simp] theorem State.readAhead_willComplete (n : Nat) (s : State) : (s.readAhead n).willComplete = s.willComplete := rfl

/-! ### `State.advance` -/

@[simp] theorem State.advance_cfg (k : Nat) (s : State) : (s.advance k).cfg = s.cfg := rfl
@[simp] theorem State.advance_rom (k : Nat) (s : State) : (s.advance k).rom = s.rom := rfl
@[simp] theorem State.advance_colStart (k : Nat) (s : State) : (s.advance k).colStart = s.colStart := rfl
@[simp] theorem State.advance_rowStart (k : Nat) (s : State) : (s.advance k).rowStart = s.rowStart := rfl
@[simp] theorem State.advance_xOrigin (k : Nat) (s : State) : (s.advance k).xOrigin = s.xOrigin := rfl
@[simp] theorem State.advance_yOrigin (k : Nat) (s : State) : (s.advance k).yOrigin = s.yOrigin := rfl
@[simp] theorem State.advance_busFreq (k : Nat) (s : State) : (s.advance k).busFreq = s.busFreq := rfl
@[simp] theorem State.advance_lifecycle (k : Nat) (s : State) : (s.advance k).lifecycle = s.lifecycle := rfl
@[simp] theorem State.advance_cursor (k : Nat) (s : State) :
    (s.advance k).cursor = addrAdd s.cfg s.cursor k := rfl
@[simp] theorem State.advance_remaining (k : Nat) (s : State) : (s.advance k).remaining = s.remaining := rfl
@[simp] theorem State.advance_opcodeReg (k : Nat) (s : State) : (s.advance k).opcodeReg = s.opcodeReg := rfl
@[simp] theorem State.advance_argSpecReg (k : Nat) (s : State) : (s.advance k).argSpecReg = s.argSpecReg := rfl
@[simp] theorem State.advance_argIdx (k : Nat) (s : State) : (s.advance k).argIdx = s.argIdx := rfl
@[simp] theorem State.advance_delayReg (k : Nat) (s : State) : (s.advance k).delayReg = s.delayReg := rfl
@[simp] theorem State.advance_phase (k : Nat) (s : State) : (s.advance k).phase = s.phase := rfl
@[simp] theorem State.advance_trace (k : Nat) (s : State) : (s.advance k).trace = s.trace := rfl
@[simp] theorem State.advance_reads (k : Nat) (s : State) : (s.advance k).reads = s.reads := rfl
@[simp] theorem State.advance_rspDone (k : Nat) (s : State) : (s.advance k).rspDone = s.rspDone := rfl
@[simp] theorem State.advance_inputs (k : Nat) (s : State) : (s.advance k).inputs = s.inputs := rfl
@[simp] theorem State.advance_willComplete (k : Nat) (s : State) : (s.advance k).willComplete = s.willComplete := rfl

/-! ### `State.loadCount` -/

@[simp] theorem State.loadCount_cfg (n : Byte) (s : State) : (s.loadCount n).cfg = s.cfg := rfl
@[simp] theorem State.loadCount_rom (n : Byte) (s : State) : (s.loadCount n).rom = s.rom := rfl
@[simp] theorem State.loadCount_colStart (n : Byte) (s : State) : (s.loadCount n).colStart = s.colStart := rfl
@[simp] theorem State.loadCount_rowStart (n : Byte) (s : State) : (s.loadCount n).rowStart = s.rowStart := rfl
@[simp] theorem State.loadCount_xOrigin (n : Byte) (s : State) : (s.loadCount n).xOrigin = s.xOrigin := rfl
@[simp] theorem State.loadCount_yOrigin (n : Byte) (s : State) : (s.loadCount n).yOrigin = s.yOrigin := rfl
@[simp] theorem State.loadCount_busFreq (n : Byte) (s : State) : (s.loadCount n).busFreq = s.busFreq := rfl
@[simp] theorem State.loadCount_lifecycle (n : Byte) (s : State) : (s.loadCount n).lifecycle = s.lifecycle := rfl
@[simp] theorem State.loadCount_cursor (n : Byte) (s : State) :
    (s.loadCount n).cursor = addrAdd s.cfg s.cursor 1 := rfl
@[simp] theorem State.loadCount_remaining (n : Byte) (s : State) :
    (s.loadCount n).remaining = n := rfl
@[simp] theorem State.loadCount_opcodeReg (n : Byte) (s : State) : (s.loadCount n).opcodeReg = s.opcodeReg := rfl
@[simp] theorem State.loadCount_argSpecReg (n : Byte) (s : State) : (s.loadCount n).argSpecReg = s.argSpecReg := rfl
@[simp] theorem State.loadCount_argIdx (n : Byte) (s : State) : (s.loadCount n).argIdx = s.argIdx := rfl
@[simp] theorem State.loadCount_delayReg (n : Byte) (s : State) : (s.loadCount n).delayReg = s.delayReg := rfl
@[simp] theorem State.loadCount_phase (n : Byte) (s : State) : (s.loadCount n).phase = s.phase := rfl
@[simp] theorem State.loadCount_trace (n : Byte) (s : State) : (s.loadCount n).trace = s.trace := rfl
@[simp] theorem State.loadCount_reads (n : Byte) (s : State) :
    (s.loadCount n).reads = s.reads ++ (List.range 1).map s.romAddr := rfl
@[simp] theorem State.loadCount_rspDone (n : Byte) (s : State) : (s.loadCount n).rspDone = s.rspDone := rfl
@[simp] theorem State.loadCount_inputs (n : Byte) (s : State) : (s.loadCount n).inputs = s.inputs := rfl
@[simp] theorem State.loadCount_willComplete (n : Byte) (s : State) : (s.loadCount n).willComplete = s.willComplete := rfl

/-! ### `State.fetchHead` -/

@[simp] theorem State.fetchHead_cfg (s : State) : (s.fetchHead).cfg = s.cfg := rfl
@[simp] theorem State.fetchHead_rom (s : State) : (s.fetchHead).rom = s.rom := rfl
@[simp] theorem State.fetchHead_colStart (s : State) : (s.fetchHead).colStart = s.colStart := rfl
@[simp] theorem State.fetchHead_rowStart (s : State) : (s.fetchHead).rowStart = s.rowStart := rfl
@[simp] theorem State.fetchHead_xOrigin (s : State) : (s.fetchHead).xOrigin = s.xOrigin := rfl
@[simp] theorem State.fetchHead_yOrigin (s : State) : (s.fetchHead).yOrigin = s.yOrigin := rfl
@[simp] theorem State.fetchHead_busFreq (s : State) : (s.fetchHead).busFreq = s.busFreq := rfl
@[simp] theorem State.fetchHead_lifecycle (s : State) : (s.fetchHead).lifecycle = s.lifecycle := rfl
@[simp] theorem State.fetchHead_cursor (s : State) :
    (s.fetchHead).cursor = addrAdd s.cfg (addrAdd s.cfg s.cursor 1) 1 := rfl
@[simp] theorem State.fetchHead_remaining (s : State) : (s.fetchHead).remaining = s.remaining := rfl
@[simp] theorem State.fetchHead_opcodeReg (s : State) :
    (s.fetchHead).opcodeReg = s.byteAhead 0 := rfl
@[simp] theorem State.fetchHead_argSpecReg (s : State) :
    (s.fetchHead).argSpecReg = s.byteAhead 1 := rfl
@[simp] theorem State.fetchHead_argIdx (s : State) : (s.fetchHead).argIdx = s.argIdx := rfl
@[simp] theorem State.fetchHead_delayReg (s : State) : (s.fetchHead).delayReg = s.delayReg := rfl
@[simp] theorem State.fetchHead_phase (s : State) : (s.fetchHead).phase = s.phase := rfl
@[simp] theorem State.fetchHead_trace (s : State) : (s.fetchHead).trace = s.trace := rfl
@[simp] theorem State.fetchHead_reads (s : State) :
    (s.fetchHead).reads = s.reads ++ (List.range 2).map s.romAddr := rfl
@[simp] theorem State.fetchHead_rspDone (s : State) : (s.fetchHead).rspDone = s.rspDone := rfl
@[simp] theorem State.fetchHead_inputs (s : State) : (s.fetchHead).inputs = s.inputs := rfl
@[simp] theorem State.fetchHead_willComplete (s : State) : (s.fetchHead).willComplete = s.willComplete := rfl

/-! ### `State.endRecord` -/

@[simp] theorem State.endRecord_cfg (s : State) : (s.endRecord).cfg = s.cfg := rfl
@[simp] theorem State.endRecord_rom (s : State) : (s.endRecord).rom = s.rom := rfl
@[simp] theorem State.endRecord_colStart (s : State) : (s.endRecord).colStart = s.colStart := rfl
@[simp] theorem State.endRecord_rowStart (s : State) : (s.endRecord).rowStart = s.rowStart := rfl
@[simp] theorem State.endRecord_xOrigin (s : State) : (s.endRecord).xOrigin = s.xOrigin := rfl
@[simp] theorem State.endRecord_yOrigin (s : State) : (s.endRecord).yOrigin = s.yOrigin := rfl
@[simp] theorem State.endRecord_busFreq (s : State) : (s.endRecord).busFreq = s.busFreq := rfl
@[simp] theorem State.endRecord_lifecycle (s : State) : (s.endRecord).lifecycle = s.lifecycle := rfl
@[simp] theorem State.endRecord_cursor (s : State) : (s.endRecord).cursor = s.cursor := rfl
@[simp] theorem State.endRecord_remaining (s : State) :
    (s.endRecord).remaining = s.remaining - 1 := rfl
@[simp] theorem State.endRecord_opcodeReg (s : State) : (s.endRecord).opcodeReg = s.opcodeReg := rfl
@[simp] theorem State.endRecord_argSpecReg (s : State) : (s.endRecord).argSpecReg = s.argSpecReg := rfl
@[simp] theorem State.endRecord_argIdx (s : State) : (s.endRecord).argIdx = s.argIdx := rfl
@[simp] theorem State.endRecord_delayReg (s : State) : (s.endRecord).delayReg = s.delayReg := rfl
@[simp] theorem State.endRecord_phase (s : State) : (s.endRecord).phase = s.phase := rfl
@[simp] theorem State.endRecord_trace (s : State) : (s.endRecord).trace = s.trace := rfl
@[simp] theorem State.endRecord_reads (s : State) : (s.endRecord).reads = s.reads := rfl
@[simp] theorem State.endRecord_rspDone (s : State) : (s.endRecord).rspDone = s.rspDone := rfl
@[simp] theorem State.endRecord_inputs (s : State) : (s.endRecord).inputs = s.inputs := rfl
@[simp] theorem State.endRecord_willComplete (s : State) : (s.endRecord).willComplete = s.willComplete := rfl

/-! ### `State.enterTable` -/

@[simp] theorem State.enterTable_cfg (t : Table) (s : State) : (s.enterTable t).cfg = s.cfg := rfl
@[simp] theorem State.enterTable_rom (t : Table) (s : State) : (s.enterTable t).rom = s.rom := rfl
@[simp] theorem State.enterTable_colStart (t : Table) (s : State) : (s.enterTable t).colStart = s.colStart := rfl
@[simp] theorem State.enterTable_rowStart (t : Table) (s : State) : (s.enterTable t).rowStart = s.rowStart := rfl
@[simp] theorem State.enterTable_xOrigin (t : Table) (s : State) : (s.enterTable t).xOrigin = s.xOrigin := rfl
@[simp] theorem State.enterTable_yOrigin (t : Table) (s : State) : (s.enterTable t).yOrigin = s.yOrigin := rfl
@[simp] theorem State.enterTable_busFreq (t : Table) (s : State) : (s.enterTable t).busFreq = s.busFreq := rfl
@[simp] theorem State.enterTable_lifecycle (t : Table) (s : State) : (s.enterTable t).lifecycle = s.lifecycle := rfl
@[simp] theorem State.enterTable_cursor (t : Table) (s : State) :
    (s.enterTable t).cursor = tableBase s.cfg t := rfl
@[simp] theorem State.enterTable_remaining (t : Table) (s : State) : (s.enterTable t).remaining = s.remaining := rfl
@[simp] theorem State.enterTable_opcodeReg (t : Table) (s : State) : (s.enterTable t).opcodeReg = s.opcodeReg := rfl
@[simp] theorem State.enterTable_argSpecReg (t : Table) (s : State) : (s.enterTable t).argSpecReg = s.argSpecReg := rfl
@[simp] theorem State.enterTable_argIdx (t : Table) (s : State) : (s.enterTable t).argIdx = s.argIdx := rfl
@[simp] theorem State.enterTable_delayReg (t : Table) (s : State) : (s.enterTable t).delayReg = s.delayReg := rfl
@[simp] theorem State.enterTable_phase (t : Table) (s : State) : (s.enterTable t).phase = s.phase := rfl
@[simp] theorem State.enterTable_trace (t : Table) (s : State) : (s.enterTable t).trace = s.trace := rfl
@[simp] theorem State.enterTable_reads (t : Table) (s : State) : (s.enterTable t).reads = s.reads := rfl
@[simp] theorem State.enterTable_rspDone (t : Table) (s : State) : (s.enterTable t).rspDone = s.rspDone := rfl
@[simp] theorem State.enterTable_inputs (t : Table) (s : State) : (s.enterTable t).inputs = s.inputs := rfl
@[simp] theorem State.enterTable_willComplete (t : Table) (s : State) : (s.enterTable t).willComplete = s.willComplete := rfl

/-! ### `State.becomeReady` -/

@[simp] theorem State.becomeReady_cfg (s : State) : (s.becomeReady).cfg = s.cfg := rfl
@[simp] theorem State.becomeReady_rom (s : State) : (s.becomeReady).rom = s.rom := rfl
@[simp] theorem State.becomeReady_colStart (s : State) : (s.becomeReady).colStart = s.colStart := rfl
@[simp] theorem State.becomeReady_rowStart (s : State) : (s.becomeReady).rowStart = s.rowStart := rfl
@[simp] theorem State.becomeReady_xOrigin (s : State) :
    (s.becomeReady).xOrigin = s.colStart := rfl
@[simp] theorem State.becomeReady_yOrigin (s : State) :
    (s.becomeReady).yOrigin = s.rowStart := rfl
@[simp] theorem State.becomeReady_busFreq (s : State) : (s.becomeReady).busFreq = s.busFreq := rfl
@[simp] theorem State.becomeReady_lifecycle (s : State) :
    (s.becomeReady).lifecycle = .ready := rfl
@[simp] theorem State.becomeReady_cursor (s : State) : (s.becomeReady).cursor = s.cursor := rfl
@[simp] theorem State.becomeReady_remaining (s : State) : (s.becomeReady).remaining = s.remaining := rfl
@[simp] theorem State.becomeReady_opcodeReg (s : State) : (s.becomeReady).opcodeReg = s.opcodeReg := rfl
@[simp] theorem State.becomeReady_argSpecReg (s : State) : (s.becomeReady).argSpecReg = s.argSpecReg := rfl
@[simp] theorem State.becomeReady_argIdx (s : State) : (s.becomeReady).argIdx = s.argIdx := rfl
@[simp] theorem State.becomeReady_delayReg (s : State) : (s.becomeReady).delayReg = s.delayReg := rfl
@[simp] theorem State.becomeReady_phase (s : State) : (s.becomeReady).phase = s.phase := rfl
@[simp] theorem State.becomeReady_trace (s : State) : (s.becomeReady).trace = s.trace := rfl
@[simp] theorem State.becomeReady_reads (s : State) : (s.becomeReady).reads = s.reads := rfl
@[simp] theorem State.becomeReady_rspDone (s : State) : (s.becomeReady).rspDone = s.rspDone := rfl
@[simp] theorem State.becomeReady_inputs (s : State) : (s.becomeReady).inputs = s.inputs := rfl
@[simp] theorem State.becomeReady_willComplete (s : State) : (s.becomeReady).willComplete = s.willComplete := rfl

/-! ### `State.accept` -/

@[simp] theorem State.accept_cfg (rest : List Input) (s : State) : (s.accept rest).cfg = s.cfg := rfl
@[simp] theorem State.accept_rom (rest : List Input) (s : State) : (s.accept rest).rom = s.rom := rfl
@[simp] theorem State.accept_colStart (rest : List Input) (s : State) : (s.accept rest).colStart = s.colStart := rfl
@[simp] theorem State.accept_rowStart (rest : List Input) (s : State) : (s.accept rest).rowStart = s.rowStart := rfl
@[simp] theorem State.accept_xOrigin (rest : List Input) (s : State) : (s.accept rest).xOrigin = s.xOrigin := rfl
@[simp] theorem State.accept_yOrigin (rest : List Input) (s : State) : (s.accept rest).yOrigin = s.yOrigin := rfl
@[simp] theorem State.accept_busFreq (rest : List Input) (s : State) : (s.accept rest).busFreq = s.busFreq := rfl
@[simp] theorem State.accept_lifecycle (rest : List Input) (s : State) : (s.accept rest).lifecycle = s.lifecycle := rfl
@[simp] theorem State.accept_cursor (rest : List Input) (s : State) : (s.accept rest).cursor = s.cursor := rfl
@[simp] theorem State.accept_remaining (rest : List Input) (s : State) : (s.accept rest).remaining = s.remaining := rfl
@[simp] theorem State.accept_opcodeReg (rest : List Input) (s : State) : (s.accept rest).opcodeReg = s.opcodeReg := rfl
@[simp] theorem State.accept_argSpecReg (rest : List Input) (s : State) : (s.accept rest).argSpecReg = s.argSpecReg := rfl
@[simp] theorem State.accept_argIdx (rest : List Input) (s : State) : (s.accept rest).argIdx = s.argIdx := rfl
@[simp] theorem State.accept_delayReg (rest : List Input) (s : State) : (s.accept rest).delayReg = s.delayReg := rfl
@[simp] theorem State.accept_phase (rest : List Input) (s : State) :
    (s.accept rest).phase = .running := rfl
@[simp] theorem State.accept_trace (rest : List Input) (s : State) : (s.accept rest).trace = s.trace := rfl
@[simp] theorem State.accept_reads (rest : List Input) (s : State) : (s.accept rest).reads = s.reads := rfl
@[simp] theorem State.accept_rspDone (rest : List Input) (s : State) : (s.accept rest).rspDone = s.rspDone := rfl
@[simp] theorem State.accept_inputs (rest : List Input) (s : State) :
    (s.accept rest).inputs = rest := rfl
@[simp] theorem State.accept_willComplete (rest : List Input) (s : State) : (s.accept rest).willComplete = s.willComplete := rfl

/-! ### `State.complete` -/

@[simp] theorem State.complete_cfg (s : State) : (s.complete).cfg = s.cfg := rfl
@[simp] theorem State.complete_rom (s : State) : (s.complete).rom = s.rom := rfl
@[simp] theorem State.complete_colStart (s : State) : (s.complete).colStart = s.colStart := rfl
@[simp] theorem State.complete_rowStart (s : State) : (s.complete).rowStart = s.rowStart := rfl
@[simp] theorem State.complete_xOrigin (s : State) : (s.complete).xOrigin = s.xOrigin := rfl
@[simp] theorem State.complete_yOrigin (s : State) : (s.complete).yOrigin = s.yOrigin := rfl
@[simp] theorem State.complete_busFreq (s : State) : (s.complete).busFreq = s.busFreq := rfl
@[simp] theorem State.complete_lifecycle (s : State) : (s.complete).lifecycle = s.lifecycle := rfl
@[simp] theorem State.complete_cursor (s : State) : (s.complete).cursor = s.cursor := rfl
@[simp] theorem State.complete_remaining (s : State) : (s.complete).remaining = s.remaining := rfl
@[simp] theorem State.complete_opcodeReg (s : State) : (s.complete).opcodeReg = s.opcodeReg := rfl
@[simp] theorem State.complete_argSpecReg (s : State) : (s.complete).argSpecReg = s.argSpecReg := rfl
@[simp] theorem State.complete_argIdx (s : State) : (s.complete).argIdx = s.argIdx := rfl
@[simp] theorem State.complete_delayReg (s : State) : (s.complete).delayReg = s.delayReg := rfl
@[simp] theorem State.complete_phase (s : State) :
    (s.complete).phase = .idle := rfl
@[simp] theorem State.complete_trace (s : State) : (s.complete).trace = s.trace := rfl
@[simp] theorem State.complete_reads (s : State) : (s.complete).reads = s.reads := rfl
@[simp] theorem State.complete_rspDone (s : State) :
    (s.complete).rspDone = true := rfl
@[simp] theorem State.complete_inputs (s : State) : (s.complete).inputs = s.inputs := rfl
@[simp] theorem State.complete_willComplete (s : State) : (s.complete).willComplete = s.willComplete := rfl

/-! ### `State.clearDone` -/

@[simp] theorem State.clearDone_cfg (s : State) : (s.clearDone).cfg = s.cfg := rfl
@[simp] theorem State.clearDone_rom (s : State) : (s.clearDone).rom = s.rom := rfl
@[simp] theorem State.clearDone_colStart (s : State) : (s.clearDone).colStart = s.colStart := rfl
@[simp] theorem State.clearDone_rowStart (s : State) : (s.clearDone).rowStart = s.rowStart := rfl
@[simp] theorem State.clearDone_xOrigin (s : State) : (s.clearDone).xOrigin = s.xOrigin := rfl
@[simp] theorem State.clearDone_yOrigin (s : State) : (s.clearDone).yOrigin = s.yOrigin := rfl
@[simp] theorem State.clearDone_busFreq (s : State) : (s.clearDone).busFreq = s.busFreq := rfl
@[simp] theorem State.clearDone_lifecycle (s : State) : (s.clearDone).lifecycle = s.lifecycle := rfl
@[simp] theorem State.clearDone_cursor (s : State) : (s.clearDone).cursor = s.cursor := rfl
@[simp] theorem State.clearDone_remaining (s : State) : (s.clearDone).remaining = s.remaining := rfl
@[simp] theorem State.clearDone_opcodeReg (s : State) : (s.clearDone).opcodeReg = s.opcodeReg := rfl
@[simp] theorem State.clearDone_argSpecReg (s : State) : (s.clearDone).argSpecReg = s.argSpecReg := rfl
@[simp] theorem State.clearDone_argIdx (s : State) : (s.clearDone).argIdx = s.argIdx := rfl
@[simp] theorem State.clearDone_delayReg (s : State) : (s.clearDone).delayReg = s.delayReg := rfl
@[simp] theorem State.clearDone_phase (s : State) : (s.clearDone).phase = s.phase := rfl
@[simp] theorem State.clearDone_trace (s : State) : (s.clearDone).trace = s.trace := rfl
@[simp] theorem State.clearDone_reads (s : State) : (s.clearDone).reads = s.reads := rfl
@[simp] theorem State.clearDone_rspDone (s : State) :
    (s.clearDone).rspDone = false := rfl
@[simp] theorem State.clearDone_inputs (s : State) : (s.clearDone).inputs = s.inputs := rfl
@[simp] theorem State.clearDone_willComplete (s : State) : (s.clearDone).willComplete = s.willComplete := rfl

/-! ### `State.enterRecords` -/

@[simp] theorem State.enterRecords_cfg (t : Table) (s : State) : (s.enterRecords t).cfg = s.cfg := rfl
@[simp] theorem State.enterRecords_rom (t : Table) (s : State) : (s.enterRecords t).rom = s.rom := rfl
@[simp] theorem State.enterRecords_colStart (t : Table) (s : State) : (s.enterRecords t).colStart = s.colStart := rfl
@[simp] theorem State.enterRecords_rowStart (t : Table) (s : State) : (s.enterRecords t).rowStart = s.rowStart := rfl
@[simp] theorem State.enterRecords_xOrigin (t : Table) (s : State) : (s.enterRecords t).xOrigin = s.xOrigin := rfl
@[simp] theorem State.enterRecords_yOrigin (t : Table) (s : State) : (s.enterRecords t).yOrigin = s.yOrigin := rfl
@[simp] theorem State.enterRecords_busFreq (t : Table) (s : State) : (s.enterRecords t).busFreq = s.busFreq := rfl
@[simp] theorem State.enterRecords_lifecycle (t : Table) (s : State) : (s.enterRecords t).lifecycle = s.lifecycle := rfl
@[simp] theorem State.enterRecords_cursor (t : Table) (s : State) : (s.enterRecords t).cursor = s.cursor := rfl
@[simp] theorem State.enterRecords_remaining (t : Table) (s : State) : (s.enterRecords t).remaining = s.remaining := rfl
@[simp] theorem State.enterRecords_opcodeReg (t : Table) (s : State) : (s.enterRecords t).opcodeReg = s.opcodeReg := rfl
@[simp] theorem State.enterRecords_argSpecReg (t : Table) (s : State) : (s.enterRecords t).argSpecReg = s.argSpecReg := rfl
@[simp] theorem State.enterRecords_argIdx (t : Table) (s : State) : (s.enterRecords t).argIdx = s.argIdx := rfl
@[simp] theorem State.enterRecords_delayReg (t : Table) (s : State) : (s.enterRecords t).delayReg = s.delayReg := rfl
@[simp] theorem State.enterRecords_phase (t : Table) (s : State) :
    (s.enterRecords t).phase = .records t := rfl
@[simp] theorem State.enterRecords_trace (t : Table) (s : State) : (s.enterRecords t).trace = s.trace := rfl
@[simp] theorem State.enterRecords_reads (t : Table) (s : State) : (s.enterRecords t).reads = s.reads := rfl
@[simp] theorem State.enterRecords_rspDone (t : Table) (s : State) : (s.enterRecords t).rspDone = s.rspDone := rfl
@[simp] theorem State.enterRecords_inputs (t : Table) (s : State) : (s.enterRecords t).inputs = s.inputs := rfl
@[simp] theorem State.enterRecords_willComplete (t : Table) (s : State) : (s.enterRecords t).willComplete = s.willComplete := rfl

/-! ### `State.afterReset`: the values of 10_state.md R38 -/

@[simp] theorem State.afterReset_cfg (rest : List Input) (s : State) : (s.afterReset rest).cfg = s.cfg := rfl
@[simp] theorem State.afterReset_rom (rest : List Input) (s : State) : (s.afterReset rest).rom = s.rom := rfl
@[simp] theorem State.afterReset_colStart (rest : List Input) (s : State) : (s.afterReset rest).colStart = 0 := rfl
@[simp] theorem State.afterReset_rowStart (rest : List Input) (s : State) : (s.afterReset rest).rowStart = 0 := rfl
@[simp] theorem State.afterReset_xOrigin (rest : List Input) (s : State) : (s.afterReset rest).xOrigin = 0 := rfl
@[simp] theorem State.afterReset_yOrigin (rest : List Input) (s : State) : (s.afterReset rest).yOrigin = 0 := rfl
@[simp] theorem State.afterReset_busFreq (rest : List Input) (s : State) : (s.afterReset rest).busFreq = 0 := rfl
@[simp] theorem State.afterReset_lifecycle (rest : List Input) (s : State) : (s.afterReset rest).lifecycle = .uninitialized := rfl
@[simp] theorem State.afterReset_cursor (rest : List Input) (s : State) : (s.afterReset rest).cursor = 0 := rfl
@[simp] theorem State.afterReset_remaining (rest : List Input) (s : State) : (s.afterReset rest).remaining = 0 := rfl
@[simp] theorem State.afterReset_opcodeReg (rest : List Input) (s : State) : (s.afterReset rest).opcodeReg = 0 := rfl
@[simp] theorem State.afterReset_argSpecReg (rest : List Input) (s : State) : (s.afterReset rest).argSpecReg = 0 := rfl
@[simp] theorem State.afterReset_argIdx (rest : List Input) (s : State) : (s.afterReset rest).argIdx = 0 := rfl
@[simp] theorem State.afterReset_delayReg (rest : List Input) (s : State) : (s.afterReset rest).delayReg = 0 := rfl
@[simp] theorem State.afterReset_phase (rest : List Input) (s : State) : (s.afterReset rest).phase = .idle := rfl
@[simp] theorem State.afterReset_trace (rest : List Input) (s : State) : (s.afterReset rest).trace = [] := rfl
@[simp] theorem State.afterReset_reads (rest : List Input) (s : State) : (s.afterReset rest).reads = [] := rfl
@[simp] theorem State.afterReset_rspDone (rest : List Input) (s : State) : (s.afterReset rest).rspDone = false := rfl
@[simp] theorem State.afterReset_inputs (rest : List Input) (s : State) : (s.afterReset rest).inputs = rest := rfl
@[simp] theorem State.afterReset_willComplete (rest : List Input) (s : State) : (s.afterReset rest).willComplete = s.willComplete := rfl

end Sys2Proof.Machine
end

