-- ==== Sys2Proof/Laws/Ops.lean ====
section
/-! SUPPORT. One lemma per shared operation saying once what it does: emitting, the steps of a record, the record loop,
Replay, and the shape of every meaning's answer. -/

namespace Sys2Proof.Machine

/-! ### Emitting -/

/-- With collaborators that complete every event, an emission appends its event and changes nothing else. -/
theorem State.emit_of_live {s : State} (e : Event) (h : s.Live) : s.emit e = { s with trace := s.trace ++ [e] } := by
  simp [State.emit, h.1]

theorem State.emit_live {s : State} (e : Event) (h : s.Live) : (s.emit e).Live := by
  simp [State.Live, h.1, h.2]

theorem State.andThen_of_live {s : State} (f : State → State) (h : s.Live) : s.andThen f = f s := if_neg h.2

theorem State.andThen_of_waiting {s : State} (f : State → State) (h : s.phase = .waiting) : s.andThen f = s := if_pos h

/-- An emission and the next statement, with collaborators that complete every event. -/
theorem State.emit_andThen_of_live {s : State} (e : Event) (f : State → State) (h : s.Live) :
    (s.emit e).andThen f = f { s with trace := s.trace ++ [e] } := by
  rw [State.andThen_of_live f (State.emit_live e h), State.emit_of_live e h]

/-- Everything a next statement can be: it did not run because the block waits, or it ran. -/
theorem State.andThen_cases (s : State) (f : State → State) :
    (s.phase = .waiting ∧ s.andThen f = s) ∨ (s.phase ≠ .waiting ∧ s.andThen f = f s) := by
  by_cases h : s.phase = .waiting
  · exact Or.inl ⟨h, if_pos h⟩
  · exact Or.inr ⟨h, if_neg h⟩

/-! ### Addresses -/

theorem addrAdd_addrAdd (p : Params) (a j k : Nat) : addrAdd p (addrAdd p a j) k = addrAdd p a (j + k) := by
  simp [addrAdd, Nat.mod_add_mod, Nat.add_assoc]

theorem addrAdd_lt (p : Params) (a k : Nat) : addrAdd p a k < 2 ^ p.addrW := Nat.mod_lt _ (Nat.two_pow_pos _)

theorem addrsFrom_zero (p : Params) (a : Nat) : addrsFrom p a 0 = [] := rfl

/-- Addresses in two stretches, the second starting where the first ends. -/
theorem addrsFrom_append (p : Params) (a m n : Nat) :
    addrsFrom p a m ++ addrsFrom p (addrAdd p a m) n = addrsFrom p a (m + n) := by
  simp [addrsFrom, List.range_add, Function.comp_def, addrAdd_addrAdd]

theorem addrsFrom_lt {p : Params} {a n : Nat} : ∀ x ∈ addrsFrom p a n, x < 2 ^ p.addrW := by
  intro x hx
  obtain ⟨k, _, rfl⟩ := List.mem_map.mp hx
  exact addrAdd_lt p a k

/-- What `rom_addr` carries for the bytes from the cursor up. -/
theorem State.map_romAddr (s : State) (n : Nat) : (List.range n).map s.romAddr = addrsFrom s.cfg s.cursor n := rfl

/-- What `rom_addr` carries for one byte. -/
theorem State.singleton_romAddr (s : State) : [s.romAddr 0] = addrsFrom s.cfg s.cursor 1 := rfl

/-- Looking ahead from a cursor that has moved `k` places is looking `k` places further ahead. -/
theorem State.byteAhead_of_cursor {s t : State} {k : Nat} (hc : t.cfg = s.cfg) (hr : t.rom = s.rom)
    (hk : t.cursor = addrAdd s.cfg s.cursor k) (j : Nat) : t.byteAhead j = s.byteAhead (k + j) := by
  simp [State.byteAhead, State.memRead, State.romData, State.romAddr, hc, hr, hk, addrAdd_addrAdd]

/-! ### A record -/

theorem argCount_le (spec : Byte) : argCount spec ≤ maxArgs := by
  have h : (spec &&& 0x7F#8).toNat ≤ 127 := by
    rw [BitVec.toNat_and]
    exact Nat.and_le_right
  exact h

/-- The record at the cursor occupies as many bytes as its second byte announces (30_encoding.md R88). -/
theorem recordFrom_size (rd : Nat → Byte) : (recordFrom rd).size = recordLength (rd 1) := by
  by_cases h : delayFollows (rd 1) = true <;> simp [Record.size, recordFrom, recordLength, h]

/-- The record at the start of a stream depends on its own bytes only. -/
theorem recordFrom_congr {rd rd' : Nat → Byte} (h : ∀ k < recordLength (rd 1), rd k = rd' k) :
    recordFrom rd = recordFrom rd' := by
  have h0 : rd 0 = rd' 0 := h 0 (by simp only [recordLength]; omega)
  have h1 : rd 1 = rd' 1 := h 1 (by simp only [recordLength]; omega)
  have ha : ∀ i < argCount (rd 1), rd (2 + i) = rd' (2 + i) := fun i hi => h _ (by simp only [recordLength]; omega)
  simp only [recordFrom, ← h0, ← h1, Record.mk.injEq, true_and]
  refine ⟨List.map_congr_left fun i hi => ha i (List.mem_range.mp hi), ?_⟩
  by_cases hd : delayFollows (rd 1) = true
  · have := h (2 + argCount (rd 1)) (by simp [recordLength, hd])
    simp [hd, this]
  · simp [hd]

/-- The records of a table depend on their own bytes only. -/
theorem recordsFrom_congr {rd rd' : Nat → Byte} : ∀ (n off : Nat),
    (∀ k < ((recordsFrom rd n off).map Record.size).sum, rd (off + k) = rd' (off + k)) →
      recordsFrom rd n off = recordsFrom rd' n off
  | 0, _, _ => rfl
  | n + 1, off, h => by
    simp only [recordsFrom, List.map_cons, List.sum_cons] at h ⊢
    have h1 : recordFrom (fun k => rd (off + k)) = recordFrom (fun k => rd' (off + k)) :=
      recordFrom_congr fun k hk => h k (by rw [recordFrom_size]; omega)
    have h2 : recordsFrom rd n (off + (recordFrom fun k => rd (off + k)).size) =
        recordsFrom rd' n (off + (recordFrom fun k => rd (off + k)).size) :=
      recordsFrom_congr n _ fun k hk => by
        rw [Nat.add_assoc]
        exact h _ (Nat.add_lt_add_left hk _)
    rw [← h1, h2]

theorem State.fetchHead_byteAhead (s : State) (j : Nat) : s.fetchHead.byteAhead j = s.byteAhead (2 + j) :=
  State.byteAhead_of_cursor (s := s) (t := s.fetchHead) (k := 2) rfl rfl (addrAdd_addrAdd _ _ 1 1) j

/-- The working registers hold the operands of the record at the cursor once its head is fetched. -/
theorem State.fetchHead_argBytes (s : State) : s.fetchHead.argBytes = s.recordHere.args :=
  List.map_congr_left fun j _ => s.fetchHead_byteAhead j

theorem State.fetchHead_flagD (s : State) : s.fetchHead.flagD = s.recordHere.delay.isSome := by
  by_cases h : delayFollows (s.byteAhead 1) = true <;> simp [State.flagD, State.recordHere, recordFrom, h]

theorem State.recordHere_args_length (s : State) : s.recordHere.args.length = argCount (s.byteAhead 1) := by
  simp [State.recordHere, recordFrom]

theorem State.recordHere_args_le (s : State) : s.recordHere.args.length ≤ maxArgs :=
  s.recordHere_args_length ▸ argCount_le _

/-- The body of the form a record is (30_encoding.md R78). -/
def State.runForm (r : Record) (s : State) : State :=
  match r.delay with
  | none => s.sendRecord r.op r.args
  | some ms => s.sendRecordThenDelay r.op r.args ms

/-- The meaning of a record's form is its body. -/
theorem exec_record (r : Record) (s : State) : exec r.toInstr s = .next (s.runForm r) := by
  rcases r with ⟨op, args, _ | ms⟩ <;> rfl

theorem State.sendRecord_cursor {s : State} {op : Byte} {args : List Byte} (h : (s.sendRecord op args).phase ≠ .waiting) :
    (s.sendRecord op args).cursor = addrAdd s.cfg s.cursor args.length := by
  simp only [State.sendRecord, State.andThen] at h ⊢
  split
  · rename_i hw
    exact absurd hw (by rwa [if_pos hw] at h)
  · rfl

theorem State.sendRecord_cfg (s : State) (op : Byte) (args : List Byte) : (s.sendRecord op args).cfg = s.cfg := by
  simp only [State.sendRecord, State.andThen]
  split <;> rfl

theorem State.sendRecord_rom (s : State) (op : Byte) (args : List Byte) : (s.sendRecord op args).rom = s.rom := by
  simp only [State.sendRecord, State.andThen]
  split <;> rfl

/-- One turn of the record loop is the meaning of the record at the cursor, after its head is fetched: the form the
working registers choose is the form the decoder reads from the bytes. -/
theorem State.runRecord_eq (s : State) : s.runRecord = (s.fetchHead.runForm s.recordHere).andThen State.endRecord := by
  have hcmd : s.fetchHead.runCmd = s.fetchHead.sendRecord s.recordHere.op s.recordHere.args := by
    rw [State.runCmd, State.fetchHead_argBytes]
    rfl
  have hd : s.recordHere.delay =
      if delayFollows (s.byteAhead 1) then some (s.byteAhead (2 + argCount (s.byteAhead 1))) else none := rfl
  by_cases h : delayFollows (s.byteAhead 1) = true
  · rw [if_pos h] at hd
    have hrun : s.fetchHead.runCmdd = s.fetchHead.runForm s.recordHere := by
      simp only [State.runCmdd, State.runForm, hd, State.sendRecordThenDelay, hcmd]
      rcases State.andThen_cases (s.fetchHead.sendRecord s.recordHere.op s.recordHere.args)
        (fun t => t.honourDelay (t.byteAhead 0)) with ⟨hw, he⟩ | ⟨hw, he⟩
      · rw [he, State.andThen_of_waiting _ hw]
      · rw [he, State.andThen, if_neg hw]
        have hcur := State.sendRecord_cursor hw
        rw [State.byteAhead_of_cursor (s := s.fetchHead) (State.sendRecord_cfg _ _ _) (State.sendRecord_rom _ _ _) hcur,
          State.fetchHead_byteAhead, State.recordHere_args_length]
        rfl
    simp only [State.runRecord, State.fetchHead_flagD, hd, Option.isSome_some, if_true, hrun]
  · rw [if_neg h] at hd
    have hrun : s.fetchHead.runCmd = s.fetchHead.runForm s.recordHere := by
      simp only [State.runForm, hd, hcmd]
    simp only [State.runRecord, State.fetchHead_flagD, hd, Option.isSome_none, Bool.false_eq_true, if_false, hrun]

/-- The body of `CMD`, when every event is completed. -/
theorem State.sendRecord_of_live {s : State} (op : Byte) (args : List Byte) (h : s.Live) :
    s.sendRecord op args =
      { s with
        argIdx := BitVec.ofNat 7 args.length
        reads := s.reads ++ addrsFrom s.cfg s.cursor args.length
        trace := s.trace ++ [.txn op args]
        cursor := addrAdd s.cfg s.cursor args.length } := by
  simp [State.sendRecord, State.sendCommand, State.andThen, State.emit, State.advance, State.readAhead, State.map_romAddr,
    h.1, h.2]

/-- The body of `CMDD`, when every event is completed. -/
theorem State.sendRecordThenDelay_of_live {s : State} (op : Byte) (args : List Byte) (ms : Byte) (h : s.Live) :
    s.sendRecordThenDelay op args ms =
      { s with
        argIdx := BitVec.ofNat 7 args.length
        reads := s.reads ++ addrsFrom s.cfg s.cursor (args.length + 1)
        trace := s.trace ++ [.txn op args, .delay ms]
        delayReg := ms
        cursor := addrAdd s.cfg s.cursor (args.length + 1) } := by
  simp [State.sendRecordThenDelay, State.sendRecord_of_live op args h, State.andThen, State.honourDelay, State.delay,
    State.emit, State.advance, State.readAhead, State.singleton_romAddr, addrAdd_addrAdd, addrsFrom_append, h.1, h.2]

/-- One turn of the record loop, when every event is completed: the record at the cursor is sent, the cursor steps past
all its bytes, `remaining` steps down. -/
theorem State.runRecord_of_live {s : State} (h : s.Live) :
    s.runRecord =
      { s with
        opcodeReg := s.byteAhead 0
        argSpecReg := s.byteAhead 1
        argIdx := BitVec.ofNat 7 s.recordHere.args.length
        delayReg := s.recordHere.delay.getD s.delayReg
        reads := s.reads ++ addrsFrom s.cfg s.cursor s.recordHere.size
        cursor := addrAdd s.cfg s.cursor s.recordHere.size
        trace := s.trace ++ s.recordHere.events
        remaining := s.remaining - 1 } := by
  have hl : s.fetchHead.Live := h
  have hop : s.byteAhead 0 = s.recordHere.op := rfl
  rw [State.runRecord_eq, State.runForm]
  rcases hd : s.recordHere.delay with _ | ms
  · simp only [State.sendRecord_of_live _ _ hl]
    ext1 <;> simp [State.andThen, Record.events, Record.size, State.map_romAddr, addrAdd_addrAdd, addrsFrom_append, hd, h.2, hop]
  · simp only [State.sendRecordThenDelay_of_live _ _ _ hl]
    ext1 <;> simp [State.andThen, Record.events, Record.size, State.map_romAddr, addrAdd_addrAdd, addrsFrom_append, hd, h.2, hop,
      Nat.add_assoc]

/-- Reading a table from a stream that starts later. -/
theorem recordsFrom_shift (rd : Nat → Byte) (m : Nat) : ∀ (n off : Nat),
    recordsFrom (fun k => rd (m + k)) n off = recordsFrom rd n (m + off)
  | 0, _ => rfl
  | n + 1, off => by
    simp only [recordsFrom, recordsFrom_shift rd m n, Nat.add_assoc]

/-- The four working registers that hold parts of a record, after the records `rs` have been made: what the last record,
or the last delay byte, put there. -/
def State.afterRecords (rs : List Record) (s : State) : State :=
  { s with
    opcodeReg := (rs.getLast?.map Record.op).getD s.opcodeReg
    argSpecReg := (rs.getLast?.map fun r => argSpec r.args.length r.delay.isSome).getD s.argSpecReg
    argIdx := (rs.getLast?.map fun r => BitVec.ofNat 7 r.args.length).getD s.argIdx
    delayReg := (rs.filterMap Record.delay).getLast?.getD s.delayReg }

/-- The arg-spec byte is its two fields (30_encoding.md R73). -/
theorem argSpec_fields : ∀ spec : Byte, argSpec (argCount spec) (delayFollows spec) = spec := by decide +kernel

theorem State.recordHere_argSpec (s : State) :
    argSpec s.recordHere.args.length s.recordHere.delay.isSome = s.byteAhead 1 := by
  rw [← State.fetchHead_flagD, State.recordHere_args_length]
  exact argSpec_fields _

/-- `n` turns of the record loop, when every event is completed: the next `n` records of the table are sent in order, the
cursor steps past all of them, `remaining` goes down by `n`, and nothing but working registers, the trace and the history
of reads changes. -/
theorem State.runRecords_of_live : ∀ (n : Nat) {s : State}, s.Live → s.cursor < 2 ^ s.cfg.addrW →
    s.runRecords n =
      { s.afterRecords (recordsFrom s.byteAhead n 0) with
        cursor := addrAdd s.cfg s.cursor ((recordsFrom s.byteAhead n 0).map Record.size).sum
        reads := s.reads ++ addrsFrom s.cfg s.cursor ((recordsFrom s.byteAhead n 0).map Record.size).sum
        trace := s.trace ++ tableEvents (recordsFrom s.byteAhead n 0)
        remaining := s.remaining - BitVec.ofNat 8 n }
  | 0, s, _, hc => by
    ext1 <;> simp [State.runRecords, State.afterRecords, recordsFrom, tableEvents, addrsFrom_zero, addrAdd,
      Nat.mod_eq_of_lt hc]
  | n + 1, s, h, _ => by
    have hr := State.runRecord_of_live h
    have hl : s.runRecord.Live := by rw [hr]; exact h
    have hb : s.runRecord.byteAhead = fun j => s.byteAhead (s.recordHere.size + j) :=
      funext fun j => State.byteAhead_of_cursor (by rw [hr]) (by rw [hr]) (by rw [hr]) j
    have hrs : recordsFrom s.byteAhead (n + 1) 0 = s.recordHere :: recordsFrom s.byteAhead n s.recordHere.size := by
      simp [recordsFrom, State.recordHere]
    have ih := State.runRecords_of_live n hl (by rw [hr]; exact addrAdd_lt _ _ _)
    have hop : s.byteAhead 0 = s.recordHere.op := rfl
    rw [State.runRecords, State.andThen_of_live _ hl, ih, hb, recordsFrom_shift, hrs, Nat.add_zero]
    generalize recordsFrom s.byteAhead n s.recordHere.size = rs
    ext1 <;> simp [hr, addrAdd_addrAdd, addrsFrom_append, tableEvents, State.afterRecords, List.getLast?_cons, hop,
      ← State.recordHere_argSpec]
    rw [BitVec.ofNat_add, ← BitVec.sub_sub, BitVec.sub_sub, BitVec.add_comm, BitVec.sub_sub]

/-- `Replay`, when every event is completed (40_table_records.md R105, R110): the events of the decoded table are emitted
in order, the table's bytes are read once each in increasing order, the cursor ends one past the last of them,
`remaining` is 0, and nothing but working registers, the trace and the history of reads changes. -/
theorem State.replay_of_live (t : Table) {s : State} (h : s.Live) :
    s.replay t =
      { s.afterRecords (s.tableAt (tableBase s.cfg t)) with
        cursor := addrAdd s.cfg (tableBase s.cfg t) (tableSize (s.tableAt (tableBase s.cfg t)))
        reads := s.reads ++ addrsFrom s.cfg (tableBase s.cfg t) (tableSize (s.tableAt (tableBase s.cfg t)))
        trace := s.trace ++ tableEvents (s.tableAt (tableBase s.cfg t))
        remaining := 0 } := by
  let u := (s.enterTable t).loadCount ((s.enterTable t).byteAhead 0)
  have hu : u.byteAhead = fun j => s.memRead (addrAdd s.cfg (tableBase s.cfg t) (1 + j)) :=
    funext fun j => State.byteAhead_of_cursor (s := s.enterTable t) (t := u) (k := 1) rfl rfl rfl j
  have hn : u.remaining = (s.enterTable t).byteAhead 0 := rfl
  have ht : recordsFrom u.byteAhead u.remaining.toNat 0 = s.tableAt (tableBase s.cfg t) := by
    rw [hu, recordsFrom_shift (fun k => s.memRead (addrAdd s.cfg (tableBase s.cfg t) k)) 1]
    rfl
  have hr := State.runRecords_of_live u.remaining.toNat (s := u) h (addrAdd_lt _ _ _)
  have he : s.replay t = u.runRecords u.remaining.toNat := rfl
  rw [he, hr, ht]
  have ha : s.reads ++ [(s.enterTable t).romAddr 0] = s.reads ++ addrsFrom s.cfg (tableBase s.cfg t) 1 := rfl
  ext1 <;> simp [u, ha, addrAdd_addrAdd, addrsFrom_append, tableSize, State.afterRecords]

end Sys2Proof.Machine
end

