-- ==== Sys2Proof/Laws/Bytes.lean ====
section
/-! SUPPORT. Byte order and record bytes: what packing, splitting and joining numbers does, and what a record's own
serialisation reads as. -/

namespace Sys2Proof

open Machine

/-! ### Numbers and their bytes -/

/-- Joining two bit vectors, the first one on top. -/
theorem append_toNat {m n : Nat} (x : BitVec m) (y : BitVec n) : (x ++ y).toNat = x.toNat * 2 ^ n + y.toNat := by
  rw [BitVec.toNat_append, Nat.shiftLeft_eq, Nat.mul_comm, ← Nat.two_pow_add_eq_or_of_lt y.isLt, Nat.mul_comm]

theorem packWindow_toNat (a b : U16) : (packWindow a b).toNat = a.toNat * 65536 + b.toNat := append_toNat a b

theorem be32_eq (v : U32) : be32 v = bytesOf32 v.toNat := by
  simp only [be32, bytesOf32, List.cons.injEq, and_true]
  refine ⟨?_, ?_, ?_, ?_⟩ <;> apply BitVec.eq_of_toNat_eq <;>
    simp [BitVec.toNat_ofNat, BitVec.extractLsb'_toNat, Nat.shiftRight_eq_div_pow]

theorem windowArgs_eq (a b : U16) : windowArgs a b = bytesOf16 a.toNat ++ bytesOf16 b.toNat := by
  have := a.isLt
  have := b.isLt
  rw [windowArgs, be32_eq, packWindow_toNat]
  simp only [bytesOf32, bytesOf16, List.cons_append, List.nil_append, List.cons.injEq, and_true]
  refine ⟨?_, ?_, ?_, ?_⟩ <;> apply BitVec.eq_of_toNat_eq <;> simp only [BitVec.toNat_ofNat] <;> omega

theorem be32_append (a b c d : Byte) : be32 (a ++ b ++ c ++ d) = [a, b, c, d] := by
  have := a.isLt
  have := b.isLt
  have := c.isLt
  have := d.isLt
  simp only [be32_eq, append_toNat, bytesOf32, List.cons.injEq, and_true]
  refine ⟨?_, ?_, ?_, ?_⟩ <;> apply BitVec.eq_of_toNat_eq <;> simp only [BitVec.toNat_ofNat] <;> omega

theorem append_be32 (v : U32) : ∃ a b c d, be32 v = [a, b, c, d] ∧ a ++ b ++ c ++ d = v := by
  refine ⟨_, _, _, _, rfl, ?_⟩
  apply BitVec.eq_of_toNat_eq
  have := v.isLt
  simp only [append_toNat, BitVec.extractLsb'_toNat, Nat.shiftRight_eq_div_pow]
  omega

/-- The last coordinate of a window as a number (41_host_operations.md R137). -/
theorem windowEnd_toNat (start size : U16) :
    (windowEnd start size).toNat = (start.toNat + size.toNat + 65535) % 65536 := by
  simp [windowEnd, BitVec.toNat_sub, BitVec.toNat_add]
  omega

/-! ### The arg-spec byte and a record's bytes -/

theorem argSpec_toNat {n : Nat} (h : n ≤ maxArgs) (d : Bool) : (argSpec n d).toNat = (if d then 128 else 0) + n := by
  simp only [maxArgs] at h
  cases d <;> simp [argSpec] <;> omega

theorem argCount_toNat : ∀ spec : Byte, argCount spec = spec.toNat % 128 := by decide +kernel

theorem delayFollows_toNat : ∀ spec : Byte, delayFollows spec = decide (128 ≤ spec.toNat) := by decide +kernel

theorem argCount_argSpec {n : Nat} (h : n ≤ maxArgs) (d : Bool) : argCount (argSpec n d) = n := by
  rw [argCount_toNat, argSpec_toNat h]
  simp only [maxArgs] at h
  cases d <;> simp <;> omega

theorem delayFollows_argSpec {n : Nat} (h : n ≤ maxArgs) (d : Bool) : delayFollows (argSpec n d) = d := by
  rw [delayFollows_toNat, argSpec_toNat h]
  simp only [maxArgs] at h
  cases d <;> simp
  omega

theorem encodeRecord_length (r : Record) : (encodeRecord r).length = r.size := by
  rcases r with ⟨op, args, _ | ms⟩ <;> simp [encodeRecord, Record.size] <;> omega

theorem recordLength_argSpec (r : Record) (h : r.wf) : recordLength (argSpec r.args.length r.delay.isSome) = r.size := by
  simp [recordLength, argCount_argSpec h, delayFollows_argSpec h, Record.size]

/-- A stream that begins with a record's bytes begins with that record. -/
theorem recordFrom_encodeRecord (r : Record) (h : r.wf) (rd : Nat → Byte)
    (he : ∀ k < (encodeRecord r).length, rd k = (encodeRecord r).getD k 0) : recordFrom rd = r := by
  have hl := encodeRecord_length r
  have h0 : rd 0 = r.op := by
    rw [he 0 (by rw [hl, Record.size]; omega)]
    rfl
  have h1 : rd 1 = argSpec r.args.length r.delay.isSome := by
    rw [he 1 (by rw [hl, Record.size]; omega)]
    rfl
  rcases r with ⟨op, args, d⟩
  simp only [recordFrom, h0, h1, argCount_argSpec h, delayFollows_argSpec h, Record.mk.injEq, true_and]
  constructor
  · apply List.ext_getElem (by simp)
    intro i hi1 hi2
    simp only [List.getElem_map, List.getElem_range]
    rw [he _ (by rw [hl, Record.size]; simp at hi2 ⊢; omega)]
    simp [encodeRecord, Nat.add_comm 2, List.getElem?_append, hi2]
  · rcases d with _ | ms
    · rfl
    · simp only [Option.isSome_some, if_true, Option.some.injEq]
      rw [he _ (by rw [hl, Record.size]; simp)]
      simp [encodeRecord, Nat.add_comm 2]

theorem recordsFrom_length (rd : Nat → Byte) : ∀ n off, (recordsFrom rd n off).length = n
  | 0, _ => rfl
  | n + 1, off => by simp [recordsFrom, recordsFrom_length rd n]

/-! ### Beats -/

theorem dataBytes_map (args : List Byte) : dataBytes (args.map .data) = some args := by
  induction args <;> simp_all [dataBytes]

theorem decodeBeats_txnBeats (op : Byte) (args : List Byte) (h : args.length ≤ maxArgs) :
    decodeBeats (txnBeats op args) = .ok (sendForm op args) := by
  have : args.length % 128 = args.length := Nat.mod_eq_of_lt (by simp only [maxArgs] at h; omega)
  simp [txnBeats, decodeBeats, dataBytes_map, this]

end Sys2Proof
end

