-- ==== Sys2Proof/Laws/Memory.lean ====
section
/-! SUPPORT. The table memory: a tabulated memory is in canonical form and reads as it was tabulated, and the canonical form
is one. -/

namespace Sys2Proof.Machine

theorem Memory.wfFrom_mono {low low' : Nat} (h : low' ≤ low) : ∀ {m : Memory}, m.wfFrom low = true → m.wfFrom low' = true
  | [], _ => rfl
  | (a, v) :: rest, hm => by
    simp only [Memory.wfFrom, Bool.and_eq_true, decide_eq_true_eq] at hm ⊢
    exact ⟨⟨by omega, hm.1.2⟩, hm.2⟩

theorem Memory.wfFrom_tabulate (f : Nat → Byte) : ∀ (n start : Nat), (Memory.tabulate f start n).wfFrom start = true
  | 0, _ => rfl
  | n + 1, start => by
    have ih := Memory.wfFrom_tabulate f n (start + 1)
    simp only [Memory.tabulate]
    split
    · exact Memory.wfFrom_mono (Nat.le_succ _) ih
    · rename_i h
      simp [Memory.wfFrom, h, ih]

/-- Every memory image is made in canonical form. -/
theorem Memory.tabulate_wf (f : Nat → Byte) (start n : Nat) : (Memory.tabulate f start n).wf = true :=
  Memory.wfFrom_mono (Nat.zero_le _) (Memory.wfFrom_tabulate f n start)

theorem Memory.ofBytes_wf (bytes : List Byte) : (Memory.ofBytes bytes).wf = true := Memory.tabulate_wf _ _ _

theorem Memory.parameter_wf : Memory.parameter.wf = true := Memory.tabulate_wf _ _ _

theorem Memory.tabulate_addr (f : Nat → Byte) : ∀ (n start : Nat), ∀ c ∈ Memory.tabulate f start n,
    start ≤ c.1 ∧ c.1 < start + n
  | 0, _, c, hc => by simp [Memory.tabulate] at hc
  | n + 1, start, c, hc => by
    simp only [Memory.tabulate] at hc
    split at hc
    · have := Memory.tabulate_addr f n (start + 1) c hc
      omega
    · rcases List.mem_cons.mp hc with rfl | hc
      · simp
      · have := Memory.tabulate_addr f n (start + 1) c hc
        omega

theorem Memory.read_of_notMem {a : Nat} : ∀ {m : Memory}, (∀ c ∈ m, c.1 ≠ a) → m.read a = Memory.fill
  | [], _ => rfl
  | (b, v) :: rest, h => by
    have hb : a ≠ b := fun e => h (b, v) (by simp) e.symm
    simp only [Memory.read, if_neg hb]
    exact Memory.read_of_notMem fun c hc => h c (by simp [hc])

/-- A tabulated memory reads as the function it was tabulated from, at every address it covers. -/
theorem Memory.read_tabulate (f : Nat → Byte) : ∀ (n start a : Nat), start ≤ a → a < start + n →
    (Memory.tabulate f start n).read a = f a
  | 0, _, _, _, _ => by omega
  | n + 1, start, a, h1, h2 => by
    simp only [Memory.tabulate]
    split
    · rename_i h
      rcases Nat.eq_or_lt_of_le h1 with rfl | hlt
      · rw [h]
        exact Memory.read_of_notMem fun c hc => by
          have := Memory.tabulate_addr f n (start + 1) c hc
          omega
      · exact Memory.read_tabulate f n (start + 1) a hlt (by omega)
    · rcases Nat.eq_or_lt_of_le h1 with rfl | hlt
      · simp [Memory.read]
      · have hne : a ≠ start := by omega
        simp only [Memory.read, if_neg hne]
        exact Memory.read_tabulate f n (start + 1) a hlt (by omega)

/-- Outside the addresses it covers a tabulated memory reads as `Memory.fill`. -/
theorem Memory.read_tabulate_outside (f : Nat → Byte) (n start a : Nat) (h : a < start ∨ start + n ≤ a) :
    (Memory.tabulate f start n).read a = Memory.fill :=
  Memory.read_of_notMem fun c hc => by
    have := Memory.tabulate_addr f n start c hc
    omega

theorem Memory.read_ofBytes (bytes : List Byte) (a : Nat) : (Memory.ofBytes bytes).read a = bytes.getD a Memory.fill := by
  by_cases h : a < bytes.length
  · exact Memory.read_tabulate _ _ _ _ (Nat.zero_le _) (by omega)
  · rw [Memory.ofBytes, Memory.read_tabulate_outside _ _ _ _ (Or.inr (by omega))]
    simp [List.getD, List.getElem?_eq_none (not_lt.mp h)]

/-- The table memory of the reset state reads as the parameter `ROM` at every address of the address space. -/
theorem Memory.read_parameter (a : BitVec Config.addrW) : Memory.parameter.read a.toNat = Config.rom a := by
  rw [Memory.parameter, Memory.read_tabulate _ _ _ _ (Nat.zero_le _) (by have := a.isLt; omega)]
  simp

theorem Memory.addr_of_wfFrom : ∀ {m : Memory} {low : Nat}, m.wfFrom low = true → ∀ c ∈ m, low ≤ c.1
  | [], _, _, c, hc => by simp at hc
  | (a, v) :: rest, low, h, c, hc => by
    simp only [Memory.wfFrom, Bool.and_eq_true, decide_eq_true_eq] at h
    rcases List.mem_cons.mp hc with rfl | hc
    · exact h.1.1
    · have := Memory.addr_of_wfFrom h.2 c hc
      omega

theorem Memory.read_below {m : Memory} {low a : Nat} (h : m.wfFrom low = true) (ha : a < low) :
    m.read a = Memory.fill :=
  Memory.read_of_notMem fun c hc => by
    have := Memory.addr_of_wfFrom h c hc
    omega

theorem Memory.ext_wfFrom : ∀ {m m' : Memory} {low : Nat}, m.wfFrom low = true → m'.wfFrom low = true →
    (∀ a, m.read a = m'.read a) → m = m'
  | [], [], _, _, _, _ => rfl
  | [], (b, w) :: rest, low, _, h', hr => by
    simp only [Memory.wfFrom, Bool.and_eq_true, bne_iff_ne] at h'
    exact absurd (by simpa [Memory.read] using (hr b).symm) h'.1.2
  | (b, w) :: rest, [], low, h, _, hr => by
    simp only [Memory.wfFrom, Bool.and_eq_true, bne_iff_ne] at h
    exact absurd (by simpa [Memory.read] using hr b) h.1.2
  | (a, v) :: rest, (b, w) :: rest', low, h, h', hr => by
    simp only [Memory.wfFrom, Bool.and_eq_true, decide_eq_true_eq, bne_iff_ne] at h h'
    have hab : a = b := by
      rcases Nat.lt_trichotomy a b with hlt | heq | hgt
      · have h1 := hr a
        simp only [Memory.read, if_pos, if_neg (Nat.ne_of_lt hlt)] at h1
        rw [Memory.read_below h'.2 (by omega)] at h1
        exact absurd h1 h.1.2
      · exact heq
      · have h1 := hr b
        simp only [Memory.read, if_pos, if_neg (Nat.ne_of_lt hgt)] at h1
        rw [Memory.read_below h.2 (by omega)] at h1
        exact absurd h1.symm h'.1.2
    subst hab
    have hvw : v = w := by simpa [Memory.read] using hr a
    subst hvw
    refine congrArg _ (Memory.ext_wfFrom h.2 h'.2 fun c => ?_)
    by_cases hc : c = a
    · subst hc
      rw [Memory.read_below h.2 (by omega), Memory.read_below h'.2 (by omega)]
    · simpa [Memory.read, hc] using hr c

/-- Two memories in canonical form that read alike everywhere are the same data. -/
theorem Memory.ext_wf {m m' : Memory} (h : m.wf = true) (h' : m'.wf = true) (hr : ∀ a, m.read a = m'.read a) : m = m' :=
  Memory.ext_wfFrom h h' hr

end Sys2Proof.Machine
end

