-- ==== Sys2Proof/Laws/PerInstr.lean ====
section
/-! SUPPORT. The statements made for every instruction as syntax, one lemma per constructor. -/

namespace Sys2Proof.Laws

/-- The place an encoding is read in, and its length there: bytes of the table memory or of a transaction, requests, or
beats (30_encoding.md R88). -/
inductive EncodedLength.Shape where
  | header (bytes : Nat)
  | record (bytes : Nat)
  | request
  | command (bytes : Nat)
  | beats (count : Nat)
  deriving DecidableEq, Repr

/-- The shape of an encoding. -/
def EncodedLength.ofCode : Code → EncodedLength.Shape
  | .header _ => .header 1
  | .record bytes => .record bytes.length
  | .request _ => .request
  | .command bytes => .command bytes.length
  | .beats bs => .beats bs.length

/-- The format and length spec/opcode_table.json gives an instruction's row (its `length_bytes` and `arg_bytes`; the beats
of 42_dispatcher_primitives.md R167 for a primitive). -/
def EncodedLength.ofRow : Instr → EncodedLength.Shape
  | .count _ => .header 1
  | .cmd _ args => .record (2 + args.length)
  | .cmdd _ args _ => .record (3 + args.length)
  | .nop000 | .init _ | .setWindow _ _ _ _ | .setOffsets _ _ | .setDisplay _ | .setTearing _ | .nop110 | .nop111 => .request
  | .caset _ _ | .raset _ _ => .command 5
  | .madctl => .command 2
  | .ramwr | .dispon | .dispoff | .teon | .teoff => .command 1
  | .configure _ _ | .sendCommand0 _ | .delay _ => .beats 1
  | .sendCommand _ args => .beats (1 + args.length)
  | .write32 _ _ => .beats 5

/-- An instruction is encoded in the format of its row, at the length its row gives. -/
def EncodedLength.Statement (i : Instr) : Prop := ∀ p, EncodedLength.ofCode (encode p i) = EncodedLength.ofRow i

theorem EncodedLength.count (n : Byte) : EncodedLength.Statement (.count n) := fun _ => rfl

theorem EncodedLength.cmd (op : Byte) (args : List Byte) : EncodedLength.Statement (.cmd op args) := fun _ => by
  simp [encode, EncodedLength.ofCode, EncodedLength.ofRow, encodeRecord_length, Record.size]

theorem EncodedLength.cmdd (op : Byte) (args : List Byte) (ms : Byte) : EncodedLength.Statement (.cmdd op args ms) :=
  fun _ => by
    simp [encode, EncodedLength.ofCode, EncodedLength.ofRow, encodeRecord_length, Record.size]
    omega

theorem EncodedLength.nop000 : EncodedLength.Statement .nop000 := fun _ => rfl

theorem EncodedLength.init (freq : U32) : EncodedLength.Statement (.init freq) := fun _ => rfl

theorem EncodedLength.setWindow (x y w h : U16) : EncodedLength.Statement (.setWindow x y w h) := fun _ => rfl

theorem EncodedLength.setOffsets (col row : S16) : EncodedLength.Statement (.setOffsets col row) := fun _ => rfl

theorem EncodedLength.setDisplay (en : Bool) : EncodedLength.Statement (.setDisplay en) := fun _ => rfl

theorem EncodedLength.setTearing (en : Bool) : EncodedLength.Statement (.setTearing en) := fun _ => rfl

theorem EncodedLength.nop110 : EncodedLength.Statement .nop110 := fun _ => rfl

theorem EncodedLength.nop111 : EncodedLength.Statement .nop111 := fun _ => rfl

theorem EncodedLength.caset (xs xe : U16) : EncodedLength.Statement (.caset xs xe) := fun _ => rfl

theorem EncodedLength.raset (ys ye : U16) : EncodedLength.Statement (.raset ys ye) := fun _ => rfl

theorem EncodedLength.ramwr : EncodedLength.Statement .ramwr := fun _ => rfl

theorem EncodedLength.madctl : EncodedLength.Statement .madctl := fun _ => rfl

theorem EncodedLength.dispon : EncodedLength.Statement .dispon := fun _ => rfl

theorem EncodedLength.dispoff : EncodedLength.Statement .dispoff := fun _ => rfl

theorem EncodedLength.teon : EncodedLength.Statement .teon := fun _ => rfl

theorem EncodedLength.teoff : EncodedLength.Statement .teoff := fun _ => rfl

theorem EncodedLength.configure (f : U32) (mode : Mode) : EncodedLength.Statement (.configure f mode) := fun _ => rfl

theorem EncodedLength.sendCommand (op : Byte) (args : List Byte) : EncodedLength.Statement (.sendCommand op args) :=
  fun _ => by simp [encode, EncodedLength.ofCode, EncodedLength.ofRow, txnBeats, Nat.add_comm]

theorem EncodedLength.sendCommand0 (op : Byte) : EncodedLength.Statement (.sendCommand0 op) := fun _ => rfl

theorem EncodedLength.write32 (op : Byte) (v : U32) : EncodedLength.Statement (.write32 op v) := fun _ => rfl

theorem EncodedLength.delay (ms : Byte) : EncodedLength.Statement (.delay ms) := fun _ => rfl

end Sys2Proof.Laws
end

