-- ==== Sys2Proof/Laws/Step.lean ====
section
/-! SUPPORT. What a step does in each phase, and the principle that a property kept by the elementary updates is kept by
every instruction. -/

namespace Sys2Proof.Machine

/-! ### The step by phase -/

theorem step_of_idle {s : State} (h : s.phase = .idle) : step s = s.clearDone.stepIdle := if_pos h

theorem step_of_busy {s : State} (hp : s.phase ≠ .idle) (hr : Input.rst ∉ s.inputs) : step s = s.clearDone.stepBusy := by
  have h1 : s.clearDone.phase ≠ .idle := hp
  have h2 : Input.rst ∉ s.clearDone.inputs := hr
  rw [step, State.stepByPhase, if_neg h1, if_neg h2]

theorem step_of_busy_rst {s : State} (hp : s.phase ≠ .idle) (hr : Input.rst ∈ s.inputs) :
    step s = .next (s.clearDone.afterReset (s.inputs.erase .rst)) := by
  have h1 : s.clearDone.phase ≠ .idle := hp
  have h2 : Input.rst ∈ s.clearDone.inputs := hr
  rw [step, State.stepByPhase, if_neg h1, if_pos h2]
  rfl

/-- In the record loop a step is one turn of it. -/
theorem step_of_records {s : State} {t : Table} (hp : s.phase = .records t) (hr : Input.rst ∉ s.inputs)
    (hn : s.remaining ≠ 0) : step s = .next s.clearDone.runRecord := by
  have h1 : s.clearDone.phase = .records t := hp
  have h2 : s.clearDone.remaining ≠ 0 := hn
  rw [step_of_busy (by rw [hp]; simp) hr, State.stepBusy]
  simp only [h1]
  rw [State.stepRecords, if_neg h2, exec_record, State.runRecord_eq]
  rfl

/-! ### What every instruction keeps -/

/-- A property of states that an emission and an update of the working registers and of the addresses read keep. -/
structure Keeps (P : State → Prop) : Prop where
  emit : ∀ (e : Event) s, P s → P (s.emit e)
  working : ∀ s cursor remaining op spec idx dly reads, P s →
    P { s with
      cursor := cursor, remaining := remaining, opcodeReg := op, argSpecReg := spec, argIdx := idx, delayReg := dly
      reads := reads }

theorem keeps_andThen {P : State → Prop} {s : State} (f : State → State) (hs : P s) (hf : ∀ u, P u → P (f u)) :
    P (s.andThen f) := by
  rcases State.andThen_cases s f with ⟨_, h⟩ | ⟨_, h⟩ <;> rw [h]
  · exact hs
  · exact hf _ hs

section

variable {P : State → Prop} (K : Keeps P)
include K

theorem Keeps.advance (k : Nat) (s : State) (h : P s) : P (s.advance k) :=
  K.working s _ s.remaining s.opcodeReg s.argSpecReg s.argIdx s.delayReg _ h

theorem Keeps.loadCount (n : Byte) (s : State) (h : P s) : P (s.loadCount n) :=
  K.working s _ n s.opcodeReg s.argSpecReg s.argIdx s.delayReg _ h

theorem Keeps.fetchHead (s : State) (h : P s) : P s.fetchHead :=
  K.working s _ s.remaining _ _ s.argIdx s.delayReg _ h

theorem Keeps.sendRecord (op : Byte) (args : List Byte) (s : State) (h : P s) : P (s.sendRecord op args) :=
  keeps_andThen _ (K.emit _ _ (K.working s s.cursor s.remaining s.opcodeReg s.argSpecReg _ s.delayReg _ h)) (K.advance _)

theorem Keeps.honourDelay (ms : Byte) (s : State) (h : P s) : P (s.honourDelay ms) :=
  K.emit _ _ (K.working s _ s.remaining s.opcodeReg s.argSpecReg s.argIdx ms _ h)

theorem Keeps.runForm (r : Record) (s : State) (h : P s) : P (s.runForm r) := by
  simp only [State.runForm]
  split
  · exact K.sendRecord _ _ _ h
  · exact keeps_andThen _ (K.sendRecord _ _ _ h) (K.honourDelay _)

theorem Keeps.runRecord (s : State) (h : P s) : P s.runRecord := by
  rw [State.runRecord_eq]
  exact keeps_andThen _ (K.runForm _ _ (K.fetchHead _ h)) fun u hu =>
    K.working u u.cursor _ u.opcodeReg u.argSpecReg u.argIdx u.delayReg u.reads hu

theorem Keeps.runRecords : ∀ (n : Nat) (s : State), P s → P (s.runRecords n)
  | 0, _, h => h
  | n + 1, s, h => keeps_andThen _ (K.runRecord s h) (Keeps.runRecords n)

theorem Keeps.replay (t : Table) (s : State) (h : P s) : P (s.replay t) :=
  K.runRecords _ _ (K.loadCount _ _ (K.working s _ s.remaining s.opcodeReg s.argSpecReg s.argIdx s.delayReg _ h))

end

end Sys2Proof.Machine
end

