-- ==== Sys2Proof/Tests/Slice0.lean ====
section
/-! SUPPORT. Tests: the ill-formed terms the checks refuse, words written out from the encodings, one step of each instruction
against the vectors of spec/95_test_vectors.md (E, V, W, H, X and P are its names), and for each statement with hypotheses
states and operands that meet them. -/

namespace Sys2Proof.Tests

open Machine

/-! ### The device of the tests -/

/-- Parameters of a device: the opcodes are the values of 93_implementation_defined.md G1 and G2, the tables are where P1
has them. -/
def device : Params where
  addrW := 16
  table1Base := 0
  table2Base := 4
  opcCaset := 0x2A
  opcRaset := 0x2B
  opcRamwr := 0x2C
  opcMadctl := 0x36
  opcDispon := 0x29
  opcDispoff := 0x28
  opcTeon := 0x35
  opcTeoff := 0x34
  madctlValue := 0xC8
  defaultClockHz := 8000000
  transferMode := ⟨0⟩

/-- The device right after reset, its table memory the given bytes from address 0. -/
def fresh (bytes : List Byte) : State := State.fresh device (Memory.ofBytes bytes)

/-- The device of P1. -/
def p1 : State := fresh [0x01, 0x01, 0x80, 0x32, 0x00]

/-- The next state, where there is one. -/
def next (o : Host.Outcome State Fault Refusal) : Option State :=
  match o with
  | .next s => some s
  | .fault _ => none
  | .refused _ => none

/-- The trace after one instruction. -/
def traceAfter (i : Instr) (s : State) : Option (List Event) := (next (exec i s)).map State.trace

/-- `n` argument bytes. -/
def bytes (n : Nat) : List Byte := List.replicate n 0x5A

/-! ### Well-formed and ill-formed terms -/

theorem test_wellFormed_cmd_refuses_128 : (Instr.cmd 0 (bytes 128)).wellFormed = false := by decide +kernel
theorem test_wellFormed_cmd_takes_127 : (Instr.cmd 0 (bytes 127)).wellFormed = true := by decide +kernel
theorem test_wellFormed_cmdd_refuses_128 : (Instr.cmdd 0 (bytes 128) 0).wellFormed = false := by decide +kernel
theorem test_wellFormed_sendCommand_refuses_128 : (Instr.sendCommand 0 (bytes 128)).wellFormed = false := by decide +kernel

/-! ### Words of the encodings -/

/-- 30_encoding.md R71: the header byte 1000_0001 is 129 records. -/
theorem test_decode_count : decode device (.header 0b10000001#8) = .ok (.count 129) := by decide
/-- R72, R73: `oooooooo 0ccccccc` with c = 3 (V4). -/
theorem test_decode_cmd : decode device (.record [0b10110001#8, 0b00000011#8, 0x01#8, 0x2C#8, 0x2D#8]) =
    .ok (.cmd 0xB1 [0x01, 0x2C, 0x2D]) := by decide
/-- R72, R73: `oooooooo 1ccccccc` with c = 1, then the delay byte (V5). -/
theorem test_decode_cmdd : decode device (.record [0b00110110#8, 0b10000001#8, 0xC8#8, 0x0A#8]) =
    .ok (.cmdd 0x36 [0xC8] 10) := by decide
/-- R79, R80: the reserved codes, their operand fields ignored. -/
theorem test_decode_nop000 : decode device (.request ⟨0b000#3, 1, 2, 3, 4, 5, true⟩) = .ok .nop000 := by decide
/-- R79, R81: the code of each operation, each with every field set, so that a wrong field shows. -/
theorem test_decode_init : decode device (.request ⟨0b001#3, 1, 2, 3, 4, 0x007A1200, true⟩) = .ok (.init 8000000) := by decide
theorem test_decode_setWindow : decode device (.request ⟨0b010#3, 10, 20, 5, 6, 9, true⟩) = .ok (.setWindow 10 20 5 6) := by
  decide
theorem test_decode_setOffsets : decode device (.request ⟨0b011#3, 0xFFFF#16, 0x8000#16, 5, 6, 9, true⟩) =
    .ok (.setOffsets 0xFFFF 0x8000) := by decide
theorem test_decode_setDisplay : decode device (.request ⟨0b100#3, 1, 2, 3, 4, 5, true⟩) = .ok (.setDisplay true) := by decide
theorem test_decode_setTearing : decode device (.request ⟨0b101#3, 1, 2, 3, 4, 5, false⟩) = .ok (.setTearing false) := by decide
theorem test_decode_nop110 : decode device (.request ⟨0b110#3, 1, 2, 3, 4, 5, true⟩) = .ok .nop110 := by decide
theorem test_decode_nop111 : decode device (.request ⟨0b111#3, 1, 2, 3, 4, 5, true⟩) = .ok .nop111 := by decide
/-- R82, R83: the bytes of E4. -/
theorem test_decode_caset : decode device (.command [0x2A#8, 0x00#8, 0x0A#8, 0x00#8, 0x0E#8]) = .ok (.caset 10 14) := by decide
theorem test_decode_raset : decode device (.command [0x2B#8, 0x01#8, 0x14#8, 0x02#8, 0x18#8]) = .ok (.raset 276 536) := by decide
theorem test_decode_ramwr : decode device (.command [0x2C#8]) = .ok .ramwr := by decide
theorem test_decode_madctl : decode device (.command [0x36#8, 0xC8#8]) = .ok .madctl := by decide
theorem test_decode_dispon : decode device (.command [0x29#8]) = .ok .dispon := by decide
theorem test_decode_dispoff : decode device (.command [0x28#8]) = .ok .dispoff := by decide
theorem test_decode_teon : decode device (.command [0x35#8]) = .ok .teon := by decide
theorem test_decode_teoff : decode device (.command [0x34#8]) = .ok .teoff := by decide
/-- 42_dispatcher_primitives.md R167, the beats of 95_test_vectors.md section 2.5. -/
theorem test_decode_configure : decode device (.beats [.cfg 0x007A1200#32 ⟨0⟩]) = .ok (.configure 8000000 ⟨0⟩) := by decide
theorem test_decode_sendCommand : decode device (.beats [.cmd 0xB1#8 3#7, .data 0x01#8, .data 0x2C#8, .data 0x2D#8]) =
    .ok (.sendCommand 0xB1 [0x01, 0x2C, 0x2D]) := by decide
theorem test_decode_sendCommand0 : decode device (.beats [.cmd 0x29#8 0#7]) = .ok (.sendCommand0 0x29) := by decide
theorem test_decode_write32 : decode device (.beats [.cmd 0x2A#8 4#7, .data 0x00#8, .data 0x0A#8, .data 0x00#8, .data 0x0E#8]) =
    .ok (.write32 0x2A 0x000A000E) := by decide
theorem test_decode_delay : decode device (.beats [.delay 0x32#8]) = .ok (.delay 50) := by decide
/-- `tx_kind` of the four kinds of beat (R167). -/
theorem test_beat_kinds : [Beat.cfg 0 ⟨0⟩, .cmd 0 0, .data 0, .delay 0].map Beat.kind = [0b00#2, 0b01#2, 0b10#2, 0b11#2] := by
  decide

/-- The beats and what their signals carry (R167): a command of two arguments, whose `tx_len` is 2. -/
theorem test_beats_of_transaction : (Event.txn 0xB1 [0x01, 0x2C]).beats = [.cmd 0xB1 2, .data 0x01, .data 0x2C] := by decide
theorem test_signals_of_cmd :
    ((Beat.cmd 0xB1 2).signals 7).len = 2 ∧ ((Beat.cmd 0xB1 2).signals 7).data.extractLsb' 0 8 = 0xB1 :=
  ⟨rfl, BitVec.extractLsb'_append_eq_right⟩

/-- A record one byte short, one byte long, and a header-less table are refused by name. -/
theorem test_decode_short_record : decode device (.record [0xB1, 0x03, 0x01, 0x2C]) = .error .recordTooShort := by decide
theorem test_decode_long_record : decode device (.record [0x29, 0x00, 0x00]) = .error .recordTooLong := by decide
theorem test_decode_no_header : decodeTable [] = .error .noHeader := by decide
theorem test_decode_stray_data_beat : decode device (.beats [.data 1]) = .error .brokenBeats := by decide
theorem test_decode_no_own_command : decode device (.command [0x00]) = .error .notAnOwnCommand := by decide

/-- V14: the bytes of a table of two records. -/
theorem test_encode_table : encodeTable [⟨0x01, [], some 150⟩, ⟨0xB1, [0x01, 0x2C, 0x2D], none⟩] =
    [0x02, 0x01, 0x80, 0x96, 0xB1, 0x03, 0x01, 0x2C, 0x2D] := by decide

/-! ### One step of each instruction -/

/-- R101: `n` is unsigned, the cursor steps by one, here over the top of the memory (R60). -/
theorem test_count : (next (exec (.count 0x80) { p1 with cursor := 65535 })).map (fun t => (t.remaining, t.cursor)) =
    some (128, 0) := by decide
/-- E2: three arguments, and the cursor three bytes on. -/
theorem test_cmd : (next (exec (.cmd 0xB1 [0xAA, 0xBB, 0xCC]) { p1 with cursor := 2 })).map (fun t => (t.trace, t.cursor)) =
    some ([.txn 0xB1 [0xAA, 0xBB, 0xCC]], 5) := by decide
/-- E3: 255 stays 255, a cursor step for the argument and one for the delay byte. -/
theorem test_cmdd : (next (exec (.cmdd 0x36 [0xC8] 255) { p1 with cursor := 2 })).map (fun t => (t.trace, t.cursor, t.delayReg)) =
    some ([.txn 0x36 [0xC8], .delay 255], 4, 255) := by decide
/-- H8. -/
theorem test_nop000 : next (exec .nop000 p1) = some p1 := by decide
theorem test_nop110 : next (exec .nop110 p1) = some p1 := by decide
theorem test_nop111 : next (exec .nop111 p1) = some p1 := by decide
/-- P1: the trace of `INIT 0`. -/
theorem test_init_trace : traceAfter (.init 0) p1 =
    some [.cfg 8000000 ⟨0⟩, .txn 0x01 [], .delay 50, .txn 0x36 [0xC8]] := by decide
/-- P1 and H11: the registers after `INIT 4000000` with offsets 2 and 1. -/
theorem test_init_registers : (next (exec (.init 4000000) { p1 with colStart := 2, rowStart := 1 })).map
    (fun t => ([t.xOrigin, t.yOrigin], t.busFreq, t.lifecycle, t.cursor, [t.opcodeReg, t.argSpecReg, t.delayReg])) =
    some ([2, 1], 4000000, .ready, 5, [0x01, 0x80, 50]) := by decide
/-- W4: an offset pair, the full panel. -/
theorem test_setWindow_offset : traceAfter (.setWindow 0 0 128 160) { p1 with colStart := 2, rowStart := 1 } =
    some [.txn 0x2A [0x00, 0x02, 0x00, 0x81], .txn 0x2B [0x00, 0x01, 0x00, 0xA0], .txn 0x2C []] := by decide
/-- W10: a negative offset, and `w = 0`, whose end wraps. -/
theorem test_setWindow_wraps : traceAfter (.setWindow 5 5 0 1) { p1 with colStart := -5, rowStart := -5 } =
    some [.txn 0x2A [0x00, 0x00, 0xFF, 0xFF], .txn 0x2B [0x00, 0x00, 0x00, 0x00], .txn 0x2C []] := by decide
/-- H2. -/
theorem test_setOffsets : next (exec (.setOffsets 0xFFFF 0x8000) p1) =
    some { p1 with colStart := -1, rowStart := -32768 } := by decide
/-- H3, H4. -/
theorem test_setDisplay : (traceAfter (.setDisplay true) p1, traceAfter (.setDisplay false) p1) =
    (some [.txn 0x29 []], some [.txn 0x28 []]) := by decide
/-- H6, H7. -/
theorem test_setTearing : (traceAfter (.setTearing true) p1, traceAfter (.setTearing false) p1) =
    (some [.txn 0x35 []], some [.txn 0x34 []]) := by decide
/-- E4: the bytes of the packed window value. -/
theorem test_caset : traceAfter (.caset 10 14) p1 = some [.txn 0x2A [0x00, 0x0A, 0x00, 0x0E]] := by decide
theorem test_raset : traceAfter (.raset 0x1234 0x5678) p1 = some [.txn 0x2B [0x12, 0x34, 0x56, 0x78]] := by decide
theorem test_ramwr : traceAfter .ramwr p1 = some [.txn 0x2C []] := by decide
theorem test_madctl : traceAfter .madctl p1 = some [.txn 0x36 [0xC8]] := by decide
theorem test_dispon : traceAfter .dispon p1 = some [.txn 0x29 []] := by decide
theorem test_dispoff : traceAfter .dispoff p1 = some [.txn 0x28 []] := by decide
theorem test_teon : traceAfter .teon p1 = some [.txn 0x35 []] := by decide
theorem test_teoff : traceAfter .teoff p1 = some [.txn 0x34 []] := by decide
theorem test_configure : traceAfter (.configure 8000000 ⟨0⟩) p1 = some [.cfg 8000000 ⟨0⟩] := by decide
theorem test_sendCommand : traceAfter (.sendCommand 0xB1 [0x01, 0x2C]) p1 = some [.txn 0xB1 [0x01, 0x2C]] := by decide
theorem test_sendCommand0 : traceAfter (.sendCommand0 0x29) p1 = some [.txn 0x29 []] := by decide
/-- The table of `be32` in 95_test_vectors.md section 2.2. -/
theorem test_write32 : traceAfter (.write32 0x2A 0x12345678) p1 = some [.txn 0x2A [0x12, 0x34, 0x56, 0x78]] := by decide
theorem test_delay : traceAfter (.delay 0) p1 = some [.delay 0] := by decide

/-- V13: a record whose bytes wrap over the top of a 16-byte memory. -/
def wrapped : State :=
  { fresh [0x82, 0x11, 0x22, 0x07, 0, 0, 0, 0, 0, 0, 0, 0, 0, 0, 0x01, 0xA0] with cfg := { device with addrW := 4, table1Base := 14 } }

theorem test_replay_wraps : (wrapped.replay .first).trace = [.txn 0xA0 [0x11, 0x22], .delay 7] := by decide
theorem test_replay_wraps_cursor : (wrapped.replay .first).cursor = 4 := by decide
/-- V13 and 20_memory.md R58, R67: the addresses on `rom_addr`, and a byte beside each. -/
theorem test_replay_wraps_port : (wrapped.replay .first).romPort =
    [(14, 0x01), (15, 0xA0), (0, 0x82), (1, 0x11), (2, 0x22), (3, 0x07)] := by decide
/-- P1: both tables are read once, in order (20_memory.md R53, R58). -/
theorem test_init_reads : (next (exec (.init 0) p1)).map State.reads = some [0, 1, 2, 3, 4] := by decide

/-- P5: a wrong arg-spec byte shifts the meaning of the bytes after it. -/
theorem test_replay_misauthored : (fresh [0x02, 0xB1, 0x02, 0x01, 0x2C, 0x2D, 0x01, 0x00, 0xEE]).tableAt 0 =
    [⟨0xB1, [0x01, 0x2C], none⟩, ⟨0x2D, [0x00], none⟩] := by decide

/-! ### The words of the opcode table -/

theorem test_table_cmdd : decodeTableWord 16 0x2981 = some (.cmdd 0x29 [0] 0) := by decide
theorem test_table_cmd : decodeTableWord 16 0x2902 = some (.cmd 0x29 [0, 0]) := by decide
theorem test_table_setTearing : decodeTableWord 8 5 = some (.setTearing false) := by decide
theorem test_fetch_cmdd : (next (step (p1.withFetchWord 16 0x2980))).map State.trace = some [.txn 0x29 [], .delay 0] := by decide
theorem test_fetch_setTearing : (next (step (p1.withFetchWord 8 5))).map State.trace = some [.txn 0x34 []] := by decide
theorem test_fetch_delay : (next (step (p1.withFetchWord 2 3))).map State.trace = some [.delay 0] := by decide

/-! ### States and operands that meet the hypotheses of the statements -/

/-- A busy device: two commands of a window still to send. -/
def sendingTwo : State := { p1 with phase := .sending [.raset 0 0, .ramwr] }

/-- A device whose collaborator hangs, a request and a reset on their way. -/
def hung : State := { p1 with phase := .waiting, willComplete := some 0, inputs := [.request (Request.bare 5), .rst] }

/-- The request for a full-panel window. -/
def fullPanel : Request := { Request.bare 2 with w := 128, h := 160 }

/-- The record loop of the first table of P1, its one record still to do. -/
def atRecord : State := { p1 with phase := .records .first, cursor := 1, remaining := 1, busFreq := 8000000 }

theorem test_meets_ResetRestoresTheConstructedDriver :
    let s : State := { p1 with colStart := 2, lifecycle := .ready, busFreq := 1, inputs := [.rst] }
    s.phase = .idle ∧ s.inputs = .rst :: [] := by decide

/-- R202: what reset leaves of a wait, and of the inputs (log entries 6 and 19). -/
theorem test_reset_ends_wait : (next (step { hung with inputs := [.request (Request.bare 5), .rst, .request (Request.bare 4), .rst] })).map
    (fun t => (t.phase, t.inputs, t.willComplete)) =
    some (.idle, [.request (Request.bare 5), .request (Request.bare 4), .rst], some 0) := by decide

theorem test_meets_ResetEndsARunningOperation :
    let s : State := { sendingTwo with inputs := [.rst] }
    (hung.phase ≠ .idle ∧ Input.rst ∈ hung.inputs) ∧ s.phase ≠ .idle ∧ Input.rst ∈ s.inputs := by decide

theorem test_meets_CmdEmitsOneTransaction : p1.Live ∧ (bytes 127).length ≤ 127 ∧ ([] : List Byte).length ≤ 127 := by decide +kernel

theorem test_meets_CmddEmitsTransactionThenDelay : atRecord.Live ∧ (bytes 127).length ≤ 127 := by decide +kernel

theorem test_meets_RequestsReadOnlyTheirOwnFields : [0, 1, 2, 3, 4, 5, 6, 7].map (fun op => (Request.bare op).op) =
    [0b000#3, 0b001#3, 0b010#3, 0b011#3, 0b100#3, 0b101#3, 0b110#3, 0b111#3] := by decide

theorem test_meets_ReservedCodesHaveNoEffect : (Request.bare 0).op = 0b000#3 ∧ (Request.bare 6).op = 0b110#3 ∧
    (Request.bare 7).op = 0b111#3 := by decide

theorem test_meets_SetWindowEmitsThreeTransactions : p1.Live := by decide

/-- The two ends of the range, a negative offset that reaches it, and the largest window (W2, W5, W11's columns). -/
theorem test_meets_WindowInsideContractDoesNotWrap :
    (1 ≤ (1#16).toNat ∧ 0 ≤ ((1#16).toNat : Int) + (-1#16).toInt ∧ ((1#16).toNat : Int) + (-1#16).toInt + (1#16).toNat - 1 ≤ 65535) ∧
    (1 ≤ (32768#16).toNat ∧ 0 ≤ ((32768#16).toNat : Int) + (0#16).toInt ∧
      ((32768#16).toNat : Int) + (0#16).toInt + (32768#16).toNat - 1 ≤ 65535) := by decide

theorem test_meets_SetOffsetsIsUsedByTheNextWindow : ({ p1 with lifecycle := .ready } : State).Live := by decide

theorem test_meets_SetDisplaySendsOnOrOff : p1.Live ∧ p1.cfg.opcDispon ≠ p1.cfg.opcRamwr ∧ p1.cfg.opcDispoff ≠ p1.cfg.opcRamwr := by
  decide

theorem test_meets_SetTearingSendsOnOrOff : p1.Live ∧ p1.cfg.opcTeon ≠ p1.cfg.opcRamwr ∧ p1.cfg.opcTeoff ≠ p1.cfg.opcRamwr := by
  decide

theorem test_meets_InitRunsBothTablesThenOrients : wrapped.Live := by decide

theorem test_meets_OwnCommandsAreOneTransactionEach : p1.Live := by decide

theorem test_meets_PrimitivesAreOneEventEach : sendingTwo.Live := by decide

theorem test_meets_Write32IsBigEndianUnderOneCommand : sendingTwo.Live := by decide

theorem test_meets_WordsOfTheEncodingsDecode : device.opcodesDistinct := by decide

theorem test_meets_DecodeOfEncodeIsTheInstruction : device.opcodesDistinct ∧
    (Instr.cmdd 0xFF (bytes 127) 0xFF).wellFormed = true ∧ (Instr.sendCommand 0 (bytes 4)).wellFormed = true := by decide +kernel

/-- The second clause, at the lengths beside those it leaves out. -/
theorem test_meets_DecodeOfEncodeIsTheInstruction_normal : ∀ n ∈ [1, 3, 5, 127], ∀ op args,
    Instr.sendCommand 0 (bytes n) = .sendCommand op args → args.length ≠ 0 ∧ args.length ≠ 4 := by
  intro n hn op args h
  cases h
  simp only [bytes, List.length_replicate]
  simp at hn
  omega

theorem test_meets_TableSerialisationReadsBack :
    (List.replicate 255 (Record.mk 0xE0 (bytes 127) (some 5))).length ≤ 255 ∧
      ∀ r ∈ List.replicate 255 (Record.mk 0xE0 (bytes 127) (some 5)), r.wf :=
  ⟨Nat.le_of_eq List.length_replicate, fun r hr => by
    rw [List.eq_of_mem_replicate hr]
    exact Nat.le_of_eq List.length_replicate⟩

theorem test_meets_RecordBytesAreTheRecordsSerialisation :
    decodeRecord [0x3A, 0x81, 0x05, 0x0A] = .ok (⟨0x3A, [0x05], some 10⟩, []) := by decide

theorem test_meets_BeatsCarryExactlyTheirEvent : device.eventOk (.txn 0xE0 (bytes 127)) ∧ device.eventOk (.cfg 1 ⟨0⟩) ∧
    device.eventOk (.delay 0) :=
  ⟨by simp [Params.eventOk, bytes, maxArgs], ⟨by decide, rfl⟩, trivial⟩

theorem test_meets_StepRunsTheRequestedOperation :
    let s : State := { p1 with inputs := [.request fullPanel] }
    s.phase = .idle ∧ s.inputs = .request fullPanel :: [] ∧ decode s.cfg (.request fullPanel) = .ok (.setWindow 0 0 128 160) := by
  decide

theorem test_meets_StepRunsTheTableFormAtTheCursor_header :
    let s : State := { p1 with phase := .header .first }
    Input.rst ∉ s.inputs ∧ s.phase = .header .first ∧ decode s.cfg (.header (s.byteAhead 0)) = .ok (.count 1) := by decide

theorem test_meets_StepRunsTheTableFormAtTheCursor_record : Input.rst ∉ atRecord.inputs ∧ atRecord.phase = .records .first ∧
    atRecord.remaining ≠ 0 ∧ decode atRecord.cfg (.record atRecord.recordBytes) = .ok (.cmdd 0x01 [] 50) := by decide

theorem test_meets_StepRunsTheNextCommandToSend : Input.rst ∉ sendingTwo.inputs ∧
    sendingTwo.phase = .sending (.raset 0 0 :: [.ramwr]) := by decide

theorem test_meets_RecordStepSlicesItsBytes : atRecord.Live ∧ Input.rst ∉ atRecord.inputs ∧ atRecord.phase = .records .first ∧
    atRecord.remaining ≠ 0 := by decide

theorem test_meets_IdleBlockWaitsForARequest : p1.phase = .idle ∧ p1.inputs = [] := by decide

theorem test_meets_BusyBlockAcceptsNoRequest :
    let s : State := { sendingTwo with inputs := [.request fullPanel] }
    s.phase ≠ .idle ∧ Input.rst ∉ s.inputs := by decide

theorem test_meets_WaitingBlockStaysBusyForEver :
    let s : State := { hung with inputs := [.request fullPanel] }
    s.phase = .waiting ∧ Input.rst ∉ s.inputs := by decide

theorem test_meets_EveryInstructionEmitsItsEvents : p1.Live ∧ atRecord.Live := by decide

theorem test_meets_BeatSignalsOfEachKind : (bytes 127).length ≤ 127 ∧ ([] : List Byte).length ≤ 127 := by decide +kernel

/-- One collaborator answer too few, and just enough, for the three events of a window; an `INIT` that hangs at its last
event. -/
theorem test_meets_HungOperationEmitsAPrefix :
    let s (k : Nat) : State := { p1 with willComplete := some k }
    (s 2).phase ≠ .waiting ∧ (s 2).willComplete = some 2 ∧ (s 3).willComplete = some 3 ∧ 2 < ((s 2).eventsOf (.setWindow 0 0 1 1)).length ∧
      ¬ 3 < ((s 3).eventsOf (.setWindow 0 0 1 1)).length ∧ 3 < ((s 3).eventsOf (.init 0)).length := by decide

/-- An instruction under each of the three premises, and one under all. -/
theorem test_meets_RegistersChangeOnlyByTheirWriters : (next (exec .ramwr p1)).isSome = true ∧
    (∀ c r, Instr.ramwr ≠ .setOffsets c r) ∧ (∀ f, Instr.ramwr ≠ .init f) ∧ (∀ n, Instr.ramwr ≠ .count n) ∧
    (∀ o a, Instr.ramwr ≠ .cmd o a) ∧ ∀ o a m, Instr.ramwr ≠ .cmdd o a m :=
  ⟨by decide, nofun, nofun, nofun, nofun, nofun⟩

theorem test_meets_StepKeepsTableMemoryAndParameters : (next (step { p1 with inputs := [.rst] })).isSome = true ∧
    (next (step atRecord)).isSome = true := by decide

/-- An idle device with a request to run and a reset behind it: the next step is no reset. -/
def resetLater : State :=
  { p1 with lifecycle := .ready, busFreq := 1, inputs := [.request fullPanel, .rst] }

/-- A busy device, and an idle one with a reset behind the request. -/
theorem test_meets_TraceOnlyGrows : ((next (step atRecord)).isSome = true ∧ ¬ atRecord.takesReset) ∧
    (next (step resetLater)).isSome = true ∧ ¬ resetLater.takesReset := by decide

theorem test_meets_ReadyIsLeftOnlyByReset : (next (exec (.init 0) p1)).map State.lifecycle = some .ready ∧
    p1.lifecycle ≠ .ready ∧ p1.Live ∧ (next (step resetLater)).isSome = true ∧
    resetLater.lifecycle = .ready ∧ ¬ resetLater.takesReset ∧
    (next (step { resetLater with inputs := [.rst] })).isSome = true ∧
    ({ resetLater with inputs := [.rst] } : State).takesReset := by decide

theorem test_meets_LifecycleGatesNothing : (next (exec (.setWindow 0 0 1 1) p1)).isSome = true ∧
    (next (exec (.setWindow 0 0 1 1) { p1 with lifecycle := .ready })).isSome = true := by decide

theorem test_meets_WorkingRegistersAreNotObservable : (Instr.init 0).isHostOp = true ∧
    p1.withoutWorking = ({ p1 with cursor := 9, remaining := 3, delayReg := 7 } : State).withoutWorking ∧
    p1 ≠ { p1 with cursor := 9, remaining := 3, delayReg := 7 } ∧ (next (exec (.init 0) p1)).isSome = true := by decide

theorem test_meets_SecondInitRepeatsTheFirst :
    let s' : State := { p1 with colStart := 2, lifecycle := .ready, trace := [.delay 1] }
    p1.Live ∧ s'.Live ∧ s'.cfg = p1.cfg ∧ s'.rom = p1.rom := by decide

/-- X1 to X6: a next state for an instruction of every clause, the opcodes distinct. -/
theorem test_meets_WindowClosesWithTheNextCommand : p1.Live ∧ p1.cfg.opcodesDistinct ∧
    [Instr.setWindow 0 0 8 8, .setOffsets 1 1, .nop000, .nop110, .nop111, .init 0, .setDisplay true, .setTearing false].all
      (fun i => (next (exec i p1)).isSome) = true := by decide

theorem test_meets_EventsOfAnOperationAreBounded : p1.Live ∧
    [Instr.setOffsets 1 1, .nop000, .setDisplay true, .setTearing true, .setWindow 0 0 0 0, .init 0].all
      (fun i => (next (exec i p1)).isSome) = true := by decide

theorem test_meets_ReplayRunsHeaderManyRecords : wrapped.Live := by decide

theorem test_meets_ReplayReadsExactlyItsTable : wrapped.Live := by decide

/-- A table memory that differs at every address past the six bytes the Replay reads. -/
theorem test_meets_ReplayDependsOnlyOnTheBytesItReads :
    let m := Memory.ofBytes [0x82, 0x11, 0x22, 0x07, 9, 9, 9, 9, 9, 9, 9, 9, 9, 9, 0x01, 0xA0]
    wrapped.Live ∧ tableSize (wrapped.tableAt (tableBase wrapped.cfg .first)) = 6 ∧ m ≠ wrapped.rom ∧
      ∀ k < 6, m.read ((tableBase wrapped.cfg .first + k) % 2 ^ wrapped.cfg.addrW) =
        wrapped.rom.read ((tableBase wrapped.cfg .first + k) % 2 ^ wrapped.cfg.addrW) := by decide

/-- The invariant holds of a device in the middle of `INIT`, which steps. -/
theorem test_meets_StepKeepsInvariant : atRecord.Inv ∧ (next (step atRecord)).isSome = true :=
  ⟨{ params := by decide
     romCanonical := by decide
     romInSpace := by decide
     cursorInSpace := by decide
     readsInSpace := by decide
     readyHasClock := by decide
     initHasClock := by decide
     traceOk := by simp [atRecord, p1, fresh, State.fresh]
     pendingOk := by simp [atRecord, Phase.pending]
     waitingIsHung := by decide }, by decide⟩

/-- The table of P1, and a table that ends at the top address of its memory. -/
theorem test_meets_WellFormedTableDecodesToItsRecords : p1.WellFormedTable 0 [⟨0x01, [], some 50⟩] ∧
    wrapped.WellFormedTable 12 [] := by
  refine ⟨⟨by decide, by decide, by decide, by decide⟩, ⟨by decide, by decide, by decide, by decide⟩⟩

theorem test_meets_BringUpTrafficIsExact : p1.Live ∧ p1.WellFormedTable p1.cfg.table1Base [⟨0x01, [], some 50⟩] ∧
    p1.WellFormedTable p1.cfg.table2Base [] ∧ WindowFits p1.colStart 0 128 ∧ WindowFits p1.rowStart 0 160 := by
  refine ⟨by decide, ⟨by decide, by decide, by decide, by decide⟩, ⟨by decide, by decide, by decide, by decide⟩, ?_, ?_⟩ <;>
    simp [WindowFits, p1, fresh, State.fresh]

theorem test_meets_StepwiseInitAgreesWithAtomicInit : p1.Live ∧ p1.rspDone = false ∧ Input.rst ∉ p1.inputs ∧
    (next (exec (.init 0) { p1 with phase := .running })).isSome = true := by decide

theorem test_meets_StepwiseWindowAgreesWithAtomicWindow : p1.Live ∧ p1.rspDone = false ∧ Input.rst ∉ p1.inputs ∧
    (next (exec (.setWindow 0 0 1 1) { p1 with phase := .running })).isSome = true := by decide

theorem test_meets_RequestsRunInOrderOneAStep :
    let s : State := { p1 with inputs := [.request fullPanel, .request (Request.bare 5), .rst] }
    s.Live ∧ s.phase = .idle ∧ s.inputs = [fullPanel, Request.bare 5].map .request ++ [.rst] := by decide

end Sys2Proof.Tests
end

section
/-! SUPPORT. What an instruction and what a step can answer, each said once, and the properties every instruction keeps. -/

namespace Sys2Proof

/-- The instructions that make exactly one event and do nothing else: the two toggles, the own commands and the
primitives. -/
def Instr.isEmission : Instr → Bool
  | .setDisplay _ | .setTearing _ => true
  | .caset _ _ | .raset _ _ | .ramwr | .madctl | .dispon | .dispoff | .teon | .teoff => true
  | .configure _ _ | .sendCommand _ _ | .sendCommand0 _ | .write32 _ _ | .delay _ => true
  | .count _ | .cmd _ _ | .cmdd _ _ _ => false
  | .nop000 | .init _ | .setWindow _ _ _ _ | .setOffsets _ _ | .nop110 | .nop111 => false

/-- A request asks for a host operation (30_encoding.md R79, R80). -/
theorem decodeRequest_isHostOp (r : Request) : (decodeRequest r).isHostOp = true := by
  unfold decodeRequest
  split <;> rfl

end Sys2Proof

namespace Sys2Proof.Machine

/-! ### What an instruction can answer -/

/-- The end of `INIT freq`, whether or not every event was completed (41_host_operations.md R131). -/
def State.afterInit (freq : U32) (s : State) : State :=
  ((((s.configureBus freq).andThen (State.replay .first)).andThen (State.replay .second)).andThen
    State.orient).andThen State.becomeReady

/-- The three transactions of `SET_WINDOW`, from the coordinates they carry (R132). -/
def State.sendWindow (xs xe ys ye : U16) (s : State) : State :=
  ((s.sendCommand s.cfg.opcCaset (windowArgs xs xe)).andThen
    (State.sendCommand s.cfg.opcRaset (windowArgs ys ye))).andThen (State.sendCommand s.cfg.opcRamwr [])

/-- The transactions of `SET_WINDOW` from its operands, the window placed by the offsets (R132, R137). -/
def State.afterSetWindow (x y w h : U16) (s : State) : State :=
  s.sendWindow (windowStart x s.colStart) (windowEnd (windowStart x s.colStart) w)
    (windowStart y s.rowStart) (windowEnd (windowStart y s.rowStart) h)

theorem exec_init (freq : U32) (s : State) : exec (.init freq) s = .next (s.afterInit freq) := rfl

theorem exec_setWindow (x y w h : U16) (s : State) :
    exec (.setWindow x y w h) s = .next (s.afterSetWindow x y w h) := rfl

theorem exec_of_isEmission {i : Instr} (hi : i.isEmission = true) (s : State) :
    ∃ e, s.eventsOf i = [e] ∧ exec i s = .next (s.emit e) := by
  cases i <;> cases hi <;> exact ⟨_, rfl, rfl⟩

/-- What an instruction can answer in `s`. -/
inductive ExecAnswer (s : State) : Instr → State → Prop where
  | count (n : Byte) : ExecAnswer s (.count n) (s.loadCount n)
  | cmd (op : Byte) (args : List Byte) : ExecAnswer s (.cmd op args) (s.sendRecord op args)
  | cmdd (op : Byte) (args : List Byte) (ms : Byte) :
      ExecAnswer s (.cmdd op args ms) (s.sendRecordThenDelay op args ms)
  | init (freq : U32) : ExecAnswer s (.init freq) (s.afterInit freq)
  | setWindow (x y w h : U16) : ExecAnswer s (.setWindow x y w h) (s.afterSetWindow x y w h)
  | setOffsets (col row : S16) : ExecAnswer s (.setOffsets col row) { s with colStart := col, rowStart := row }
  | nop (i : Instr) (hi : i = .nop000 ∨ i = .nop110 ∨ i = .nop111) : ExecAnswer s i s
  | emission (i : Instr) (e : Event) (hi : i.isEmission = true) (he : s.eventsOf i = [e]) : ExecAnswer s i (s.emit e)

theorem exec_answer {i : Instr} {s t : State} (h : exec i s = .next t) : ExecAnswer s i t := by
  by_cases hi : i.isEmission = true
  · obtain ⟨e, he, hx⟩ := exec_of_isEmission hi s
    cases hx.symm.trans h
    exact .emission i e hi he
  · cases i with
    | count n => cases h; exact .count n
    | cmd op args => cases h; exact .cmd op args
    | cmdd op args ms => cases h; exact .cmdd op args ms
    | init freq => cases (exec_init freq s).symm.trans h; exact .init freq
    | setWindow x y w h' => cases (exec_setWindow x y w h' s).symm.trans h; exact .setWindow x y w h'
    | setOffsets col row => cases h; exact .setOffsets col row
    | nop000 => cases h; exact .nop _ (.inl rfl)
    | nop110 => cases h; exact .nop _ (.inr (.inl rfl))
    | nop111 => cases h; exact .nop _ (.inr (.inr rfl))
    | _ => exact absurd rfl hi

/-! ### The start of a Replay -/

/-- A Replay at the head of its record loop: `COUNT` has been executed on the header byte (40_table_records.md R100). -/
def State.startReplay (t : Table) (s : State) : State := (s.enterTable t).loadCount ((s.enterTable t).byteAhead 0)

theorem State.replay_eq_recordLoop (t : Table) (s : State) : s.replay t = (s.startReplay t).recordLoop := rfl

/-! ### What every instruction keeps -/

/-- A property of states that the two register updates of `INIT` outside its replays keep. -/
structure KeepsInit (P : State → Prop) : Prop where
  busFreq : ∀ f s, P s → P { s with busFreq := f }
  becomeReady : ∀ s, P s → P s.becomeReady

section

variable {P : State → Prop} (K : Keeps P)
include K

theorem Keeps.sendRecordThenDelay (op : Byte) (args : List Byte) (ms : Byte) (s : State) (h : P s) :
    P (s.sendRecordThenDelay op args ms) :=
  keeps_andThen _ (K.sendRecord _ _ _ h) (K.honourDelay _)

theorem Keeps.afterInit (I : KeepsInit P) (freq : U32) (s : State) (h : P s) : P (s.afterInit freq) :=
  have hbus : P (s.configureBus freq) := K.emit _ _ (I.busFreq _ _ h)
  have h1 := keeps_andThen _ hbus (K.replay .first)
  have h2 := keeps_andThen _ h1 (K.replay .second)
  have h3 := keeps_andThen _ h2 fun _ => K.emit _ _
  keeps_andThen _ h3 I.becomeReady

/-- A property kept by emissions and working-register updates is kept by every instruction, once the two that write
another register, `INIT` and `SET_OFFSETS`, are seen to. -/
theorem Keeps.exec {i : Instr} {s t : State} (hinit : ∀ f, i = .init f → KeepsInit P)
    (hoff : ∀ c r, i = .setOffsets c r → P { s with colStart := c, rowStart := r }) (hs : P s)
    (h : exec i s = .next t) : P t := by
  cases exec_answer h with
  | count n => exact K.loadCount n s hs
  | cmd op args => exact K.sendRecord op args s hs
  | cmdd op args ms => exact K.sendRecordThenDelay op args ms s hs
  | init freq => exact K.afterInit (hinit freq rfl) freq s hs
  | setWindow x y w h => exact keeps_andThen _ (keeps_andThen _ (K.emit _ _ hs) (K.emit _)) (K.emit _)
  | setOffsets c r => exact hoff c r rfl
  | nop => exact hs
  | emission => exact K.emit _ _ hs

end

/-! ### The frames -/

theorem keeps_offsets (c r : S16) : Keeps fun u => u.colStart = c ∧ u.rowStart = r :=
  ⟨fun _ _ h => h, fun _ _ _ _ _ _ _ _ h => h⟩

theorem keeps_latched (x y : S16) (f : U32) (l : Lifecycle) :
    Keeps fun u => u.xOrigin = x ∧ u.yOrigin = y ∧ u.busFreq = f ∧ u.lifecycle = l :=
  ⟨fun _ _ h => h, fun _ _ _ _ _ _ _ _ h => h⟩

theorem keeps_environment (p : Params) (m : Memory) (ins : List Input) (d : Bool) :
    Keeps fun u => u.cfg = p ∧ u.rom = m ∧ u.inputs = ins ∧ u.rspDone = d :=
  ⟨fun _ _ h => h, fun _ _ _ _ _ _ _ _ h => h⟩

theorem keeps_tracePrefix (es : List Event) : Keeps fun u => es <+: u.trace :=
  ⟨fun _ _ h => h.trans (List.prefix_append _ _), fun _ _ _ _ _ _ _ _ h => h⟩

/-- Nothing an instruction does changes the phase, but for a wait that begins. -/
theorem keeps_phaseOrWaits (p : Phase) : Keeps fun u => u.phase = p ∨ u.phase = .waiting where
  emit e s h := by
    rw [State.emit_phase]
    split
    · exact .inr rfl
    · exact h
  working _ _ _ _ _ _ _ _ h := h

/-- A wait begins only for a collaborator that completes nothing more (42_dispatcher_primitives.md R166). -/
theorem keeps_waitingIsHung : Keeps fun u => u.phase = .waiting → u.willComplete = some 0 where
  emit e s h := by
    rw [State.emit_phase, State.emit_willComplete]
    split
    · rename_i hhung
      intro _
      rw [hhung]
      rfl
    · intro hw
      rw [h hw]
      rfl
  working _ _ _ _ _ _ _ _ h := h

theorem keeps_live : Keeps State.Live :=
  ⟨fun e _ h => State.emit_live e h, fun _ _ _ _ _ _ _ _ h => h⟩

theorem exec_keeps_environment {i : Instr} {s t : State} (h : exec i s = .next t) :
    t.cfg = s.cfg ∧ t.rom = s.rom ∧ t.inputs = s.inputs ∧ t.rspDone = s.rspDone :=
  (keeps_environment s.cfg s.rom s.inputs s.rspDone).exec (fun _ _ => ⟨fun _ _ h => h, fun _ h => h⟩)
    (fun _ _ _ => ⟨rfl, rfl, rfl, rfl⟩) ⟨rfl, rfl, rfl, rfl⟩ h

theorem exec_keeps_offsets {i : Instr} {s t : State} (hi : ∀ c r, i ≠ .setOffsets c r) (h : exec i s = .next t) :
    t.colStart = s.colStart ∧ t.rowStart = s.rowStart :=
  (keeps_offsets s.colStart s.rowStart).exec (fun _ _ => ⟨fun _ _ h => h, fun _ h => h⟩)
    (fun c r e => absurd e (hi c r)) ⟨rfl, rfl⟩ h

theorem exec_keeps_latched {i : Instr} {s t : State} (hi : ∀ f, i ≠ .init f) (h : exec i s = .next t) :
    t.xOrigin = s.xOrigin ∧ t.yOrigin = s.yOrigin ∧ t.busFreq = s.busFreq ∧ t.lifecycle = s.lifecycle :=
  (keeps_latched s.xOrigin s.yOrigin s.busFreq s.lifecycle).exec (fun f e => absurd e (hi f))
    (fun _ _ _ => ⟨rfl, rfl, rfl, rfl⟩) ⟨rfl, rfl, rfl, rfl⟩ h

theorem exec_appends_trace {i : Instr} {s t : State} (h : exec i s = .next t) : s.trace <+: t.trace :=
  (keeps_tracePrefix s.trace).exec (fun _ _ => ⟨fun _ _ h => h, fun _ h => h⟩) (fun _ _ _ => List.prefix_rfl)
    List.prefix_rfl h

/-- The six working registers and the history of reads are those of `s`. -/
def State.SameWorking (s u : State) : Prop :=
  u.cursor = s.cursor ∧ u.remaining = s.remaining ∧ u.opcodeReg = s.opcodeReg ∧ u.argSpecReg = s.argSpecReg ∧
    u.argIdx = s.argIdx ∧ u.delayReg = s.delayReg ∧ u.reads = s.reads

theorem State.SameWorking.refl (s : State) : s.SameWorking s := ⟨rfl, rfl, rfl, rfl, rfl, rfl, rfl⟩

theorem State.SameWorking.emit {s u : State} (h : s.SameWorking u) (e : Event) : s.SameWorking (u.emit e) := h

/-- The decoder works for the table forms and `INIT` alone. -/
theorem exec_keeps_working {i : Instr} {s t : State} (hinit : ∀ f, i ≠ .init f) (hcount : ∀ n, i ≠ .count n)
    (hcmd : ∀ o a, i ≠ .cmd o a) (hcmdd : ∀ o a m, i ≠ .cmdd o a m) (h : exec i s = .next t) : s.SameWorking t := by
  have hs := State.SameWorking.refl s
  cases exec_answer h with
  | count n => exact absurd rfl (hcount n)
  | cmd op args => exact absurd rfl (hcmd op args)
  | cmdd op args ms => exact absurd rfl (hcmdd op args ms)
  | init freq => exact absurd rfl (hinit freq)
  | setWindow x y w h => exact keeps_andThen _ (keeps_andThen _ (hs.emit _) fun _ hu => hu.emit _) fun _ hu => hu.emit _
  | setOffsets c r => exact hs
  | nop => exact hs
  | emission => exact hs.emit _

/-! ### What a step can answer -/

/-- What a step from `s` can answer; the completion signal of the step before has been cleared. -/
inductive StepAnswer (s : State) : State → Prop where
  | rest (hp : s.phase = .idle) (hin : s.inputs = []) : StepAnswer s s.clearDone
  | reset (hr : s.takesReset) (rest : List Input) : StepAnswer s (s.clearDone.afterReset rest)
  | request (r : Request) (rest : List Input) (t : State) (hp : s.phase = .idle) (hin : s.inputs = .request r :: rest)
      (hx : exec (decodeRequest r) (s.clearDone.accept rest) = .next t) : StepAnswer s t.completeUnlessWaiting
  | header (tb : Table) (hp : s.phase = .header tb) :
      StepAnswer s ((s.clearDone.loadCount (s.clearDone.byteAhead 0)).andThen (State.enterRecords tb))
  | leaveTable (tb : Table) (hp : s.phase = .records tb) (h0 : s.remaining = 0) :
      StepAnswer s (s.clearDone.leaveTable tb)
  | record (tb : Table) (hp : s.phase = .records tb) : StepAnswer s s.clearDone.runRecord
  | orientation (hp : s.phase = .orientation) :
      StepAnswer s (s.clearDone.orient.andThen State.becomeReady).completeUnlessWaiting
  | send (i : Instr) (rest : List Instr) (t : State) (hp : s.phase = .sending (i :: rest))
      (hx : exec i s.clearDone = .next t) : StepAnswer s (t.andThen (State.sendRest rest))
  | finish (hp : s.phase = .running ∨ s.phase = .sending []) : StepAnswer s s.clearDone.complete
  | hang (hp : s.phase = .waiting) : StepAnswer s s.clearDone

theorem mapNext_next {f : State → State} {o : Host.Outcome State Fault Refusal} {t : State}
    (h : mapNext f o = .next t) : ∃ u, o = .next u ∧ t = f u := by
  cases o with
  | next u => cases h; exact ⟨u, rfl, rfl⟩
  | fault r => cases h
  | refused r => cases h

theorem stepIdle_answer {s t : State} (hp : s.phase = .idle) (h : s.clearDone.stepIdle = .next t) : StepAnswer s t := by
  unfold State.stepIdle at h
  split at h
  next hin => cases h; exact .rest hp hin
  next rest hin =>
    cases h
    exact .reset (.inl ⟨hp, congrArg List.head? hin⟩) rest
  next r rest hin =>
    obtain ⟨u, hx, rfl⟩ := mapNext_next h
    exact .request r rest u hp hin hx

theorem stepBusy_answer {s t : State} (hp : s.phase ≠ .idle) (hr : Input.rst ∉ s.inputs)
    (h : s.clearDone.stepBusy = .next t) : StepAnswer s t := by
  have hstep := (step_of_busy hp hr).trans h
  unfold State.stepBusy at h
  split at h
  next tb hph => cases h; exact .header tb hph
  next tb hph =>
    by_cases h0 : s.remaining = 0
    · rw [State.stepRecords, if_pos (show s.clearDone.remaining = 0 from h0)] at h
      cases h
      exact .leaveTable tb hph h0
    · cases (step_of_records hph hr h0).symm.trans hstep
      exact .record tb hph
  next hph => cases h; exact .orientation hph
  next i rest hph =>
    obtain ⟨u, hx, rfl⟩ := mapNext_next h
    exact .send i rest u hph hx
  next hph => cases h; exact .finish (.inr hph)
  next hph => cases h; exact .finish (.inl hph)
  next hph => cases h; exact .hang hph
  next hph => exact absurd hph hp

theorem step_answer {s t : State} (h : step s = .next t) : StepAnswer s t := by
  by_cases hp : s.phase = .idle
  · exact stepIdle_answer hp ((step_of_idle hp).symm.trans h)
  · by_cases hr : Input.rst ∈ s.inputs
    · cases (step_of_busy_rst hp hr).symm.trans h
      exact .reset (.inr ⟨hp, hr⟩) _
    · exact stepBusy_answer hp hr ((step_of_busy hp hr).symm.trans h)

theorem tracePrefix_andThen {es : List Event} {s : State} {f : State → State} (hs : es <+: s.trace)
    (hf : ∀ u, es <+: u.trace → es <+: (f u).trace) : es <+: (s.andThen f).trace :=
  keeps_andThen (P := fun u => es <+: u.trace) f hs hf

/-- A step that is no reset only appends to the trace (10_state.md R33). -/
theorem step_appends_trace {s t : State} (h : step s = .next t) (hr : ¬ s.takesReset) : s.trace <+: t.trace := by
  have K := keeps_tracePrefix s.trace
  have hs : s.trace <+: s.clearDone.trace := List.prefix_rfl
  cases step_answer h with
  | rest => exact hs
  | reset htakes => exact absurd htakes hr
  | request r rest u hp hin hx =>
    have happ := exec_appends_trace hx
    exact tracePrefix_andThen happ fun _ hu => hu
  | header tb => exact tracePrefix_andThen (K.loadCount _ _ hs) fun _ hu => hu
  | leaveTable tb => cases tb <;> exact hs
  | record => exact K.runRecord _ hs
  | orientation => exact tracePrefix_andThen (tracePrefix_andThen (K.emit _ _ hs) fun _ hu => hu) fun _ hu => hu
  | send i rest u hp hx =>
    have happ := exec_appends_trace hx
    refine tracePrefix_andThen happ fun v hv => ?_
    cases rest <;> exact hv
  | finish => exact hs
  | hang => exact hs

end Sys2Proof.Machine
end

section
/-! SUPPORT. The part of the invariant that every operation keeps, and the invariant from it. -/

namespace Sys2Proof.Machine

/-! ### The part of the invariant that is not about what the phase promises -/

/-- The invariant of the machine without its two clauses on what a phase inside an operation promises
(`initHasClock`, `pendingOk`). -/
structure State.Sound (s : State) : Prop where
  params : s.cfg.wf
  romCanonical : s.rom.wf = true
  romInSpace : ∀ c ∈ s.rom, c.1 < 2 ^ s.cfg.addrW
  cursorInSpace : s.cursor < 2 ^ s.cfg.addrW
  readsInSpace : ∀ a ∈ s.reads, a < 2 ^ s.cfg.addrW
  readyHasClock : s.lifecycle = .ready → s.busFreq ≠ 0
  traceOk : ∀ e ∈ s.trace, s.cfg.eventOk e
  waitingIsHung : s.phase = .waiting → s.willComplete = some 0

theorem State.Inv.sound {s : State} (h : s.Inv) : s.Sound where
  params := h.params
  romCanonical := h.romCanonical
  romInSpace := h.romInSpace
  cursorInSpace := h.cursorInSpace
  readsInSpace := h.readsInSpace
  readyHasClock := h.readyHasClock
  traceOk := h.traceOk
  waitingIsHung := h.waitingIsHung

theorem State.Sound.inv {s : State} (h : s.Sound) (hclock : s.phase.insideInit = true → s.busFreq ≠ 0)
    (hpending : ∀ i ∈ s.phase.pending, s.cfg.sendable i) : s.Inv where
  params := h.params
  romCanonical := h.romCanonical
  romInSpace := h.romInSpace
  cursorInSpace := h.cursorInSpace
  readsInSpace := h.readsInSpace
  readyHasClock := h.readyHasClock
  initHasClock := hclock
  traceOk := h.traceOk
  pendingOk := hpending
  waitingIsHung := h.waitingIsHung

/-- A phase that promises nothing about the clock and has nothing to send. -/
theorem State.Sound.inv_of_noPromise {s : State} (h : s.Sound) (hi : s.phase.insideInit = false)
    (hp : s.phase.pending = []) : s.Inv :=
  h.inv (by simp [hi]) (by simp [hp])

/-- Inside `INIT` nothing but the clock is promised. -/
theorem State.Sound.inv_of_clock {s : State} (h : s.Sound) (hf : s.busFreq ≠ 0) (hp : s.phase.pending = []) : s.Inv :=
  h.inv (fun _ => hf) (by simp [hp])

/-- The invariant after the last statement of a step: it ran, or the block waits. -/
theorem State.Sound.inv_andThen {s : State} {f : State → State} (h : s.Sound) (hf : s.phase ≠ .waiting → (f s).Inv) :
    (s.andThen f).Inv := by
  rcases State.andThen_cases s f with ⟨hw, he⟩ | ⟨hw, he⟩ <;> rw [he]
  · exact h.inv_of_noPromise (by rw [hw]; rfl) (by rw [hw]; rfl)
  · exact hf hw

/-! ### The elementary updates keep it -/

theorem State.Sound.emit {s : State} (h : s.Sound) {e : Event} (he : s.cfg.eventOk e) : (s.emit e).Sound :=
  { h with
    traceOk := List.forall_mem_append.mpr ⟨h.traceOk, List.forall_mem_singleton.mpr he⟩
    waitingIsHung := keeps_waitingIsHung.emit e s h.waitingIsHung }

/-- The decoder may set its working registers as it likes, so long as it stays inside the address space. -/
theorem State.Sound.working {s : State} (h : s.Sound) {cursor : Nat} {addrs : List Nat} (remaining op spec : Byte)
    (idx : BitVec 7) (dly : Byte) (hc : cursor < 2 ^ s.cfg.addrW) (ha : ∀ a ∈ addrs, a < 2 ^ s.cfg.addrW) :
    State.Sound { s with
      cursor := cursor, remaining := remaining, opcodeReg := op, argSpecReg := spec, argIdx := idx, delayReg := dly
      reads := s.reads ++ addrs } :=
  { h with
    cursorInSpace := hc
    readsInSpace := List.forall_mem_append.mpr ⟨h.readsInSpace, ha⟩ }

/-- What `rom_addr` carries for the bytes from the cursor up is in the address space. -/
theorem State.map_romAddr_lt (s : State) (n : Nat) : ∀ a ∈ (List.range n).map s.romAddr, a < 2 ^ s.cfg.addrW :=
  addrsFrom_lt (a := s.cursor) (n := n)

theorem State.Sound.advance {s : State} (h : s.Sound) (k : Nat) : (s.advance k).Sound :=
  { h with cursorInSpace := addrAdd_lt _ _ _ }

theorem State.Sound.enterTable {s : State} (h : s.Sound) (t : Table) : (s.enterTable t).Sound :=
  { h with
    cursorInSpace := by
      obtain ⟨-, h1, h2, -⟩ := h.params
      cases t
      · exact h1
      · exact h2 }

theorem State.Sound.loadCount {s : State} (h : s.Sound) (n : Byte) : (s.loadCount n).Sound :=
  h.working n _ _ _ _ (addrAdd_lt _ _ _) (s.map_romAddr_lt 1)

theorem State.Sound.fetchHead {s : State} (h : s.Sound) : s.fetchHead.Sound :=
  h.working _ _ _ _ _ (addrAdd_lt _ _ _) (s.map_romAddr_lt 2)

theorem State.Sound.sendRecord {s : State} (h : s.Sound) (op : Byte) {args : List Byte} (hargs : args.length ≤ maxArgs) :
    (s.sendRecord op args).Sound :=
  have hread := h.working s.remaining s.opcodeReg s.argSpecReg (BitVec.ofNat 7 args.length) s.delayReg
    h.cursorInSpace (s.map_romAddr_lt args.length)
  keeps_andThen _ (hread.emit (e := .txn op args) hargs) fun _ hu => hu.advance _

theorem State.Sound.honourDelay {s : State} (h : s.Sound) (ms : Byte) : (s.honourDelay ms).Sound :=
  (h.working s.remaining s.opcodeReg s.argSpecReg s.argIdx ms (addrAdd_lt _ _ 1) (s.map_romAddr_lt 1)).emit
    (e := .delay ms) trivial

theorem State.Sound.runForm {s : State} (h : s.Sound) {r : Record} (hr : r.wf) : (s.runForm r).Sound := by
  have hsend := h.sendRecord r.op hr
  unfold State.runForm
  split
  · exact hsend
  · exact keeps_andThen _ hsend fun _ hu => hu.honourDelay _

theorem State.Sound.runRecord {s : State} (h : s.Sound) : s.runRecord.Sound := by
  rw [State.runRecord_eq]
  exact keeps_andThen _ (h.fetchHead.runForm s.recordHere_args_le) fun _ hu => { hu with }

theorem State.Sound.runRecords : ∀ (n : Nat) {s : State}, s.Sound → (s.runRecords n).Sound
  | 0, _, h => h
  | n + 1, _, h => keeps_andThen _ h.runRecord fun _ hu => hu.runRecords n

theorem State.Sound.replay {s : State} (h : s.Sound) (t : Table) : (s.replay t).Sound :=
  ((h.enterTable t).loadCount _).runRecords _

/-! ### The host operations and the instructions to send keep it -/

theorem clockFor_ne_zero {p : Params} (hp : p.wf) (freq : U32) : clockFor p freq ≠ 0 := by
  obtain ⟨-, -, -, hdefault⟩ := hp
  unfold clockFor
  split
  · exact hdefault
  · assumption

theorem State.Sound.configureBus {s : State} (h : s.Sound) (freq : U32) : (s.configureBus freq).Sound :=
  have hf := clockFor_ne_zero h.params freq
  have hset : State.Sound { s with busFreq := clockFor s.cfg freq } := { h with readyHasClock := fun _ => hf }
  hset.emit ⟨hf, rfl⟩

theorem State.Sound.orient {s : State} (h : s.Sound) : s.orient.Sound :=
  h.emit (e := .txn _ [_]) (by decide : 1 ≤ maxArgs)

theorem keeps_clockSet : Keeps fun u => u.busFreq ≠ 0 :=
  ⟨fun _ _ h => h, fun _ _ _ _ _ _ _ _ h => h⟩

/-- Sound with the clock set, as the block is throughout `INIT` once the bus is configured: what it takes to become
ready. -/
structure State.SoundInInit (s : State) : Prop where
  sound : s.Sound
  clockSet : s.busFreq ≠ 0

theorem State.SoundInInit.replay {s : State} (h : s.SoundInInit) (t : Table) : (s.replay t).SoundInInit :=
  ⟨h.sound.replay t, keeps_clockSet.replay t s h.clockSet⟩

theorem State.SoundInInit.orient {s : State} (h : s.SoundInInit) : s.orient.SoundInInit :=
  ⟨h.sound.orient, h.clockSet⟩

theorem State.SoundInInit.becomeReady {s : State} (h : s.SoundInInit) : s.becomeReady.SoundInInit :=
  ⟨{ h.sound with readyHasClock := fun _ => h.clockSet }, h.clockSet⟩

theorem State.Sound.afterInit {s : State} (h : s.Sound) (freq : U32) : (s.afterInit freq).Sound :=
  have hbus : (s.configureBus freq).SoundInInit := ⟨h.configureBus freq, clockFor_ne_zero h.params freq⟩
  have h1 := keeps_andThen _ hbus fun _ hu => hu.replay .first
  have h2 := keeps_andThen _ h1 fun _ hu => hu.replay .second
  have h3 := keeps_andThen _ h2 fun _ hu => hu.orient
  have h4 := keeps_andThen _ h3 fun _ hu => hu.becomeReady
  h4.sound

theorem State.Sound.sendWindowCommand {s : State} (h : s.Sound) (op : Byte) (start stop : U16) :
    (s.sendCommand op (windowArgs start stop)).Sound :=
  h.emit (e := .txn _ _) (by decide : 4 ≤ maxArgs)

theorem State.Sound.sendBareCommand {s : State} (h : s.Sound) (op : Byte) : (s.sendCommand op []).Sound :=
  h.emit (e := .txn _ _) (Nat.zero_le _)

theorem State.Sound.sendWindow {s : State} (h : s.Sound) (xs xe ys ye : U16) : (s.sendWindow xs xe ys ye).Sound :=
  have h1 := h.sendWindowCommand s.cfg.opcCaset xs xe
  have h2 := keeps_andThen _ h1 fun _ hu => hu.sendWindowCommand s.cfg.opcRaset ys ye
  keeps_andThen _ h2 fun _ hu => hu.sendBareCommand s.cfg.opcRamwr

/-- The event of a toggle, of an own command or of a primitive that the block may send is one the block can emit. -/
theorem eventOk_of_emission {s : State} {i : Instr} {e : Event} (hi : i.isEmission = true)
    (hok : i.isHostOp = true ∨ s.cfg.sendable i) (he : s.eventsOf i = [e]) : s.cfg.eventOk e := by
  have hshort : ∀ n ≤ 4, n ≤ maxArgs := by decide
  cases i with
  | setDisplay _ | setTearing _ | ramwr | dispon | dispoff | teon | teoff | sendCommand0 _ =>
    cases he
    exact hshort 0 (by decide)
  | madctl => cases he; exact hshort 1 (by decide)
  | caset _ _ | raset _ _ | write32 _ _ => cases he; exact hshort 4 (by decide)
  | delay _ => cases he; trivial
  | configure f mode => cases he; exact hok.resolve_left (by simp [Instr.isHostOp])
  | sendCommand op args => cases he; exact hok.resolve_left (by simp [Instr.isHostOp])
  | _ => cases hi

/-- Every host operation, and every instruction the block may send, keeps the invariant. -/
theorem State.Sound.exec {i : Instr} {s t : State} (h : s.Sound) (hok : i.isHostOp = true ∨ s.cfg.sendable i)
    (hx : exec i s = .next t) : t.Sound := by
  cases exec_answer hx with
  | count | cmd | cmdd => simp [Instr.isHostOp, Params.sendable] at hok
  | init freq => exact h.afterInit freq
  | setWindow x y w h' => exact h.sendWindow _ _ _ _
  | setOffsets c r => exact { h with }
  | nop => exact h
  | emission _ e hi he => exact h.emit (eventOk_of_emission hi hok he)

/-! ### The ends of a step keep it -/

theorem State.Sound.clearDone {s : State} (h : s.Sound) : s.clearDone.Sound := { h with }

theorem State.Inv.clearDone {s : State} (h : s.Inv) : s.clearDone.Inv := h.sound.clearDone.inv h.initHasClock h.pendingOk

theorem State.Sound.accept {s : State} (h : s.Sound) (rest : List Input) : (s.accept rest).Sound :=
  { h with waitingIsHung := nofun }

theorem State.Sound.complete {s : State} (h : s.Sound) : s.complete.Inv :=
  State.Sound.inv_of_noPromise { h with waitingIsHung := nofun } rfl rfl

theorem State.Sound.completeUnlessWaiting {s : State} (h : s.Sound) : s.completeUnlessWaiting.Inv :=
  h.inv_andThen fun _ => h.complete

theorem State.Sound.enterRecords {s : State} (h : s.Sound) (hf : s.busFreq ≠ 0) (t : Table) : (s.enterRecords t).Inv :=
  State.Sound.inv_of_clock { h with waitingIsHung := nofun } hf rfl

theorem State.Sound.leaveTable {s : State} (h : s.Sound) (hf : s.busFreq ≠ 0) (t : Table) : (s.leaveTable t).Inv := by
  cases t with
  | first => exact State.Sound.inv_of_clock { h.enterTable .second with waitingIsHung := nofun } hf rfl
  | second => exact State.Sound.inv_of_clock { h with waitingIsHung := nofun } hf rfl

theorem State.Sound.sendRest {s : State} (h : s.Sound) {rest : List Instr} (hrest : ∀ i ∈ rest, s.cfg.sendable i) :
    (s.sendRest rest).Inv := by
  cases rest with
  | nil => exact h.complete
  | cons i rest => exact State.Sound.inv { h with waitingIsHung := nofun } nofun hrest

/-- Reset makes the invariant from what it does not touch (70_reset_and_hazards.md R200). -/
theorem State.fresh_sound {p : Params} {m : Memory} (hp : p.wf) (hm : m.wf = true) (hin : ∀ c ∈ m, c.1 < 2 ^ p.addrW) :
    (State.fresh p m).Sound where
  params := hp
  romCanonical := hm
  romInSpace := hin
  cursorInSpace := Nat.two_pow_pos _
  readsInSpace := nofun
  readyHasClock := nofun
  traceOk := nofun
  waitingIsHung := nofun

theorem State.Sound.afterReset {s : State} (h : s.Sound) (rest : List Input) : (s.afterReset rest).Inv :=
  State.Sound.inv_of_noPromise
    { State.fresh_sound h.params h.romCanonical h.romInSpace with waitingIsHung := nofun } rfl rfl

/-- A turn of the record loop leaves the block in the loop or waiting, and the clock alone. -/
theorem State.Sound.runRecord_inv {s : State} {t : Table} (h : s.Sound) (hp : s.phase = .records t)
    (hf : s.busFreq ≠ 0) : s.runRecord.Inv := by
  have hphase := (keeps_phaseOrWaits (.records t)).runRecord s (.inl hp)
  refine h.runRecord.inv_of_clock (keeps_clockSet.runRecord s hf) ?_
  rcases hphase with hp' | hp' <;> rw [hp'] <;> rfl

/-! ### The invariant at reset and at every step -/

theorem Config.params_wf : Config.params.wf := by
  refine ⟨Nat.le_add_left 1 _, Config.table1Base.isLt, Config.table2Base.isLt, fun h => ?_⟩
  have hv := Config.defaultClockLessOne.isLt
  have hz : (Config.defaultClockLessOne.val + 1) % 2 ^ 32 = 0 := congrArg BitVec.toNat h
  omega

theorem Memory.parameter_inSpace : ∀ c ∈ Memory.parameter, c.1 < 2 ^ Config.addrW := fun c hc => by
  have := Memory.tabulate_addr _ _ _ c hc
  omega

theorem State.reset_inv : State.reset.Inv :=
  (State.fresh_sound Config.params_wf Memory.parameter_wf Memory.parameter_inSpace).inv_of_noPromise rfl rfl

theorem step_keeps_inv {s t : State} (hs : s.Inv) (h : step s = .next t) : t.Inv := by
  have sound := hs.sound.clearDone
  have clock {p : Phase} (hp : s.phase = p) (hin : p.insideInit = true) : s.busFreq ≠ 0 := hs.initHasClock (hp ▸ hin)
  cases step_answer h with
  | rest => exact hs.clearDone
  | reset hr rest => exact sound.afterReset rest
  | request r rest t hp hin hx => exact ((sound.accept rest).exec (.inl (decodeRequest_isHostOp r)) hx).completeUnlessWaiting
  | header tb hp => exact (sound.loadCount _).inv_andThen fun _ => (sound.loadCount _).enterRecords (clock hp rfl) tb
  | leaveTable tb hp h0 => exact sound.leaveTable (clock hp rfl) tb
  | record tb hp => exact sound.runRecord_inv hp (clock hp rfl)
  | orientation hp =>
    have horient : s.clearDone.orient.SoundInInit := ⟨sound.orient, clock hp rfl⟩
    exact (keeps_andThen _ horient fun _ hu => hu.becomeReady).sound.completeUnlessWaiting
  | send i rest t hp hx =>
    have hpending : ∀ j ∈ i :: rest, s.cfg.sendable j := by simpa [hp, Phase.pending] using hs.pendingOk
    obtain ⟨hi, hrest⟩ := List.forall_mem_cons.mp hpending
    obtain ⟨hcfg, -⟩ := exec_keeps_environment hx
    have ht := sound.exec (.inr hi) hx
    exact ht.inv_andThen fun _ => ht.sendRest (hcfg ▸ hrest)
  | finish hp => exact sound.complete
  | hang => exact hs.clearDone

end Sys2Proof.Machine
end

section
/-! The obligations on the state, its frames and its invariant (spec/10_state.md). -/

namespace Sys2Proof.Machine

/-- Settles O3: the tabulated table memory reads as the parameter at every address, the rest is how reset is built. -/
theorem resetStateIsAsConstructed : Obligations.ResetStateIsAsConstructed := by
  refine ⟨rfl, rfl, rfl, rfl, rfl, rfl, rfl, rfl, rfl, fun a => ?_⟩
  calc State.reset.memRead a.toNat
      = Memory.parameter.read (a.toNat % 2 ^ Config.addrW) := rfl
    _ = Memory.parameter.read a.toNat := by rw [Nat.mod_eq_of_lt a.isLt]
    _ = Config.rom a := Memory.read_parameter a

/-- Settles O4. -/
theorem resetStateSatisfiesInvariant : Obligations.ResetStateSatisfiesInvariant := State.reset_inv

/-- Settles O38: each group of registers is a property that every instruction keeps, but for its writers. -/
theorem registersChangeOnlyByTheirWriters : Obligations.RegistersChangeOnlyByTheirWriters := by
  intro i s t h
  obtain ⟨hcfg, hrom, hinputs, hdone⟩ := exec_keeps_environment h
  exact ⟨fun hi => exec_keeps_offsets hi h, fun hi => exec_keeps_latched hi h,
    fun hinit hcount hcmd hcmdd => exec_keeps_working hinit hcount hcmd hcmdd h,
    hcfg, fun a => by rw [hrom], hinputs, hdone⟩

/-- Settles O40, by the cases of what a step can answer. -/
theorem traceOnlyGrows : Obligations.TraceOnlyGrows := by
  intro s t h hr
  obtain ⟨es, hes⟩ := step_appends_trace h hr
  exact ⟨es, hes.symm⟩

/-- Settles O48: the invariant without the promises of a phase is kept by every operation, and the end of each kind of
step makes the promises of the phase it enters. -/
theorem stepKeepsInvariant : Obligations.StepKeepsInvariant := fun _ _ => step_keeps_inv

end Sys2Proof.Machine
end

section
/-! SUPPORT. When the addressing window is open: what the last event of a host operation is (spec/10_state.md R35). -/

namespace Sys2Proof.Machine

theorem State.windowOpen_emit (s : State) (e : Event) : (s.emit e).WindowOpen ↔ e = .txn s.cfg.opcRamwr [] := by
  simp [State.WindowOpen]

theorem State.sendWindow_windowOpen {s : State} (h : s.Live) (xs xe ys ye : U16) :
    (s.sendWindow xs xe ys ye).WindowOpen := by
  have h1 := State.emit_live (.txn s.cfg.opcCaset (windowArgs xs xe)) h
  have h2 := State.emit_live (.txn s.cfg.opcRaset (windowArgs ys ye)) h1
  have hlast : s.sendWindow xs xe ys ye = State.emit (.txn s.cfg.opcRamwr []) _ :=
    calc s.sendWindow xs xe ys ye
        = ((s.sendCommand s.cfg.opcCaset (windowArgs xs xe)).sendCommand s.cfg.opcRaset (windowArgs ys ye)).andThen
            (State.sendCommand s.cfg.opcRamwr []) := congrArg (State.andThen · _) (State.andThen_of_live _ h1)
      _ = _ := State.andThen_of_live _ h2
  rw [hlast, State.windowOpen_emit]
  rfl

/-- `INIT`, when every event is completed: its five parts one after the other. -/
theorem State.afterInit_of_live {s : State} (h : s.Live) (freq : U32) :
    s.afterInit freq = (((s.configureBus freq).replay .first).replay .second).orient.becomeReady ∧
      (((s.configureBus freq).replay .first).replay .second).Live := by
  have h0 : (s.configureBus freq).Live := State.emit_live _ h
  have h1 := keeps_live.replay .first _ h0
  have h2 := keeps_live.replay .second _ h1
  have h3 : State.Live (State.orient _) := State.emit_live _ h2
  refine ⟨?_, h2⟩
  rw [State.afterInit, State.andThen_of_live _ h0, State.andThen_of_live _ h1, State.andThen_of_live _ h2,
    State.andThen_of_live _ h3]

/-- The orientation command has an argument, the write-RAM command none. -/
theorem State.afterInit_not_windowOpen {s : State} (h : s.Live) (freq : U32) : ¬ (s.afterInit freq).WindowOpen := by
  obtain ⟨heq, -⟩ := State.afterInit_of_live h freq
  rw [heq]
  exact fun hopen => by simpa using (State.windowOpen_emit _ _).mp hopen

theorem displayOpcode_ne_ramwr {p : Params} (hp : p.opcodesDistinct) (en : Bool) : displayOpcode p en ≠ p.opcRamwr := by
  cases en <;> simp_all [displayOpcode, Params.opcodesDistinct, eq_comm]

theorem tearingOpcode_ne_ramwr {p : Params} (hp : p.opcodesDistinct) (en : Bool) : tearingOpcode p en ≠ p.opcRamwr := by
  cases en <;> simp_all [tearingOpcode, Params.opcodesDistinct, eq_comm]

/-- Settles O45: the last event of each host operation, `ramwr` for `SET_WINDOW` alone. -/
theorem windowClosesWithTheNextCommand : Obligations.WindowClosesWithTheNextCommand := by
  intro s t i hl h
  refine ⟨?window, ?silent, ?init, ?toggle⟩
  case window =>
    rintro ⟨x, y, w, h', rfl⟩
    cases h
    exact State.sendWindow_windowOpen hl _ _ _ _
  case silent => rintro (⟨c, r, rfl⟩ | rfl | rfl | rfl) <;> cases h <;> rfl
  case init =>
    rintro ⟨f, rfl⟩
    cases h
    exact State.afterInit_not_windowOpen hl f
  case toggle =>
    rintro en (rfl | rfl) hp hopen <;> cases h
    · have he := (State.windowOpen_emit s _).mp hopen
      simp [displayOpcode_ne_ramwr hp] at he
    · have he := (State.windowOpen_emit s _).mp hopen
      simp [tearingOpcode_ne_ramwr hp] at he

end Sys2Proof.Machine
end

section
/-! SUPPORT. States that differ only in working registers of the decoder, and the operations that keep them so
(spec/10_state.md R21). -/

namespace Sys2Proof.Machine

/-- Every field but the four working registers that hold parts of a record (10_state.md R24 to R26): a Replay under way
rests on the cursor and the counter, not on these. -/
def State.withoutRecordRegs (s : State) : State :=
  { s with opcodeReg := 0, argSpecReg := 0, argIdx := 0, delayReg := 0 }

/-- A next statement after states that agree in part: both wait, or it runs in both. -/
theorem State.andThen_congr {E : State → State} (hphase : ∀ u, (E u).phase = u.phase) {s s' : State}
    {f f' : State → State} (h : E s = E s') (hf : E (f s) = E (f' s')) : E (s.andThen f) = E (s'.andThen f') := by
  have hp : s.phase = s'.phase := by rw [← hphase s, ← hphase s', h]
  unfold State.andThen
  rw [hp]
  split
  · exact h
  · exact hf

/-! ### Up to the registers of a record -/

theorem State.withoutRecordRegs_andThen {s s' : State} {f f' : State → State}
    (h : s.withoutRecordRegs = s'.withoutRecordRegs) (hf : (f s).withoutRecordRegs = (f' s').withoutRecordRegs) :
    (s.andThen f).withoutRecordRegs = (s'.andThen f').withoutRecordRegs :=
  State.andThen_congr (E := State.withoutRecordRegs) (fun _ => rfl) h hf

section

variable {s s' : State} (h : s.withoutRecordRegs = s'.withoutRecordRegs)
include h

theorem State.withoutRecordRegs_advance (k : Nat) : (s.advance k).withoutRecordRegs = (s'.advance k).withoutRecordRegs :=
  congrArg (State.advance k) h

theorem State.withoutRecordRegs_fetchHead : s.fetchHead.withoutRecordRegs = s'.fetchHead.withoutRecordRegs :=
  congrArg (fun u => u.fetchHead.withoutRecordRegs) h

theorem State.withoutRecordRegs_endRecord : s.endRecord.withoutRecordRegs = s'.endRecord.withoutRecordRegs :=
  congrArg State.endRecord h

theorem State.withoutRecordRegs_recordHere : s.recordHere = s'.recordHere := (congrArg State.recordHere h :)

theorem State.withoutRecordRegs_sendRecord (op : Byte) (args : List Byte) :
    (s.sendRecord op args).withoutRecordRegs = (s'.sendRecord op args).withoutRecordRegs :=
  have hsent : State.withoutRecordRegs (State.sendCommand op args
        { s.readAhead args.length with argIdx := BitVec.ofNat 7 args.length }) =
      State.withoutRecordRegs (State.sendCommand op args
        { s'.readAhead args.length with argIdx := BitVec.ofNat 7 args.length }) :=
    congrArg (fun u => (u.readAhead args.length).sendCommand op args) h
  State.withoutRecordRegs_andThen hsent (State.withoutRecordRegs_advance hsent _)

theorem State.withoutRecordRegs_honourDelay (ms : Byte) :
    (s.honourDelay ms).withoutRecordRegs = (s'.honourDelay ms).withoutRecordRegs :=
  congrArg (fun u => (u.honourDelay ms).withoutRecordRegs) h

theorem State.withoutRecordRegs_runForm (r : Record) :
    (s.runForm r).withoutRecordRegs = (s'.runForm r).withoutRecordRegs := by
  have hsend := State.withoutRecordRegs_sendRecord h r.op r.args
  unfold State.runForm
  split
  · exact hsend
  · exact State.withoutRecordRegs_andThen hsend (State.withoutRecordRegs_honourDelay hsend _)

theorem State.withoutRecordRegs_runRecord : s.runRecord.withoutRecordRegs = s'.runRecord.withoutRecordRegs := by
  rw [State.runRecord_eq, State.runRecord_eq, State.withoutRecordRegs_recordHere h]
  have hform := State.withoutRecordRegs_runForm (State.withoutRecordRegs_fetchHead h) s'.recordHere
  exact State.withoutRecordRegs_andThen hform (State.withoutRecordRegs_endRecord hform)

end

theorem State.withoutRecordRegs_runRecords : ∀ (n : Nat) {s s' : State}, s.withoutRecordRegs = s'.withoutRecordRegs →
    (s.runRecords n).withoutRecordRegs = (s'.runRecords n).withoutRecordRegs
  | 0, _, _, h => h
  | n + 1, _, _, h =>
    have hturn := State.withoutRecordRegs_runRecord h
    State.withoutRecordRegs_andThen hturn (State.withoutRecordRegs_runRecords n hturn)

theorem State.withoutRecordRegs_recordLoop {s s' : State} (h : s.withoutRecordRegs = s'.withoutRecordRegs) :
    s.recordLoop.withoutRecordRegs = s'.recordLoop.withoutRecordRegs := by
  have hn : s.remaining = s'.remaining := (congrArg State.remaining h :)
  rw [State.recordLoop, State.recordLoop, hn]
  exact State.withoutRecordRegs_runRecords _ h

/-! ### Up to all six working registers -/

theorem State.withoutWorking_andThen {s s' : State} {f f' : State → State}
    (h : s.withoutWorking = s'.withoutWorking) (hf : (f s).withoutWorking = (f' s').withoutWorking) :
    (s.andThen f).withoutWorking = (s'.andThen f').withoutWorking :=
  State.andThen_congr (E := State.withoutWorking) (fun _ => rfl) h hf

section

variable {s s' : State} (h : s.withoutWorking = s'.withoutWorking)
include h

theorem State.withoutWorking_emit (e : Event) : (s.emit e).withoutWorking = (s'.emit e).withoutWorking :=
  congrArg (State.emit e) h

/-- A Replay sets the cursor and the counter before it uses them. -/
theorem State.withoutRecordRegs_startReplay (t : Table) :
    (s.startReplay t).withoutRecordRegs = (s'.startReplay t).withoutRecordRegs :=
  congrArg (State.startReplay t) h

theorem State.withoutWorking_replay (t : Table) : (s.replay t).withoutWorking = (s'.replay t).withoutWorking :=
  have hloop := State.withoutRecordRegs_recordLoop (State.withoutRecordRegs_startReplay h t)
  (congrArg State.withoutWorking hloop :)

theorem State.withoutWorking_configureBus (freq : U32) :
    (s.configureBus freq).withoutWorking = (s'.configureBus freq).withoutWorking :=
  congrArg (State.configureBus freq) h

theorem State.withoutWorking_orient : s.orient.withoutWorking = s'.orient.withoutWorking := congrArg State.orient h

theorem State.withoutWorking_becomeReady : s.becomeReady.withoutWorking = s'.becomeReady.withoutWorking :=
  congrArg State.becomeReady h

theorem State.withoutWorking_afterInit (freq : U32) :
    (s.afterInit freq).withoutWorking = (s'.afterInit freq).withoutWorking :=
  have h0 := State.withoutWorking_configureBus h freq
  have h1 := State.withoutWorking_andThen h0 (State.withoutWorking_replay h0 .first)
  have h2 := State.withoutWorking_andThen h1 (State.withoutWorking_replay h1 .second)
  have h3 := State.withoutWorking_andThen h2 (State.withoutWorking_orient h2)
  State.withoutWorking_andThen h3 (State.withoutWorking_becomeReady h3)

theorem State.withoutWorking_sendWindow (xs xe ys ye : U16) :
    (s.sendWindow xs xe ys ye).withoutWorking = (s'.sendWindow xs xe ys ye).withoutWorking := by
  have hcfg : s.cfg = s'.cfg := (congrArg State.cfg h :)
  unfold State.sendWindow
  rw [hcfg]
  have h1 := State.withoutWorking_emit h (.txn s'.cfg.opcCaset (windowArgs xs xe))
  have h2 := State.withoutWorking_andThen h1 (State.withoutWorking_emit h1 (.txn s'.cfg.opcRaset (windowArgs ys ye)))
  exact State.withoutWorking_andThen h2 (State.withoutWorking_emit h2 (.txn s'.cfg.opcRamwr []))

/-- No working register is an operand of a window. -/
theorem State.withoutWorking_afterSetWindow (x y w h' : U16) :
    (s.afterSetWindow x y w h').withoutWorking = (s'.afterSetWindow x y w h').withoutWorking := by
  have hcol : s.colStart = s'.colStart := (congrArg State.colStart h :)
  have hrow : s.rowStart = s'.rowStart := (congrArg State.rowStart h :)
  unfold State.afterSetWindow
  rw [hcol, hrow]
  exact State.withoutWorking_sendWindow h _ _ _ _

theorem State.withoutWorking_setOffsets (c r : S16) :
    State.withoutWorking { s with colStart := c, rowStart := r } =
      State.withoutWorking { s' with colStart := c, rowStart := r } :=
  congrArg (fun u => { u with colStart := c, rowStart := r }) h

end

/-- No working register shapes an event. -/
theorem State.eventsOf_withoutWorking (s : State) {i : Instr} (hi : i.isEmission = true) :
    s.withoutWorking.eventsOf i = s.eventsOf i := by
  cases i <;> cases hi <;> rfl

/-- Settles O43: every part of every host operation, completed or not, keeps two states equal outside the working
registers. -/
theorem workingRegistersAreNotObservable : Obligations.WorkingRegistersAreNotObservable := by
  intro i s s' t t' hi h hx hx'
  cases exec_answer hx with
  | count | cmd | cmdd => cases hi
  | init freq => cases hx'; exact State.withoutWorking_afterInit h freq
  | setWindow x y w h' => cases hx'; exact State.withoutWorking_afterSetWindow h x y w h'
  | setOffsets c r => cases hx'; exact State.withoutWorking_setOffsets h c r
  | nop _ hnop => obtain rfl | rfl | rfl := hnop <;> cases hx' <;> exact h
  | emission _ e hem he =>
    obtain ⟨e', he', hnext⟩ := exec_of_isEmission hem s'
    cases hnext.symm.trans hx'
    rw [← State.eventsOf_withoutWorking _ hem, ← h, State.eventsOf_withoutWorking _ hem, he] at he'
    cases he'
    exact State.withoutWorking_emit h e

end Sys2Proof.Machine
end

section
/-! SUPPORT. The two grains of `INIT` (spec/10_state.md R34): a busy block that goes on one table form a step runs the same
Replays as the whole operation in one step. -/

namespace Sys2Proof.Machine

/-! ### Runs of some number of steps -/

/-- Some number of steps lead from `s` to `t`. -/
def State.Reaches (s t : State) : Prop := ∃ k, Sys2Proof.core.run k s = .next t

theorem State.Reaches.refl (s : State) : s.Reaches s := ⟨0, rfl⟩

theorem run_succ_of_step {s u : State} (h : step s = .next u) (k : Nat) :
    Sys2Proof.core.run (k + 1) s = Sys2Proof.core.run k u := by
  have hcore : Sys2Proof.core.step s = .next u := h
  simp only [Host.Core.run, hcore]

theorem State.Reaches.head {s u t : State} (h : step s = .next u) (hu : u.Reaches t) : s.Reaches t := by
  obtain ⟨k, hk⟩ := hu
  exact ⟨k + 1, (run_succ_of_step h k).trans hk⟩

theorem run_step_next {k : Nat} {s t : State} (h : Sys2Proof.core.run (k + 1) s = .next t) :
    ∃ u, step s = .next u ∧ Sys2Proof.core.run k u = .next t := by
  rcases hs : step s with u | r | r
  · exact ⟨u, rfl, (run_succ_of_step hs k).symm.trans h⟩
  · cases r
  · have hcore : Sys2Proof.core.step s = .refused r := hs
    simp [Host.Core.run, hcore] at h

theorem State.Reaches.trans {s u t : State} (h : s.Reaches u) (ht : u.Reaches t) : s.Reaches t := by
  obtain ⟨k, hk⟩ := h
  induction k generalizing s with
  | zero => cases hk; exact ht
  | succ k ih =>
    obtain ⟨v, hv, hk⟩ := run_step_next hk
    exact .head hv (ih hk)

/-! ### The phase of a running operation -/

/-- Nothing disturbs the running operation: its events are completed, no reset is asserted, and no completion is being
signalled. -/
structure State.Undisturbed (s : State) : Prop where
  live : s.Live
  noReset : Input.rst ∉ s.inputs
  notDone : s.rspDone = false

theorem keeps_undisturbed : Keeps State.Undisturbed where
  emit e _ h := { h with live := State.emit_live e h.live }
  working _ _ _ _ _ _ _ _ h := { h with live := h.live }

theorem State.Undisturbed.clearDone {s : State} (h : s.Undisturbed) : s.clearDone = s := by
  rw [State.clearDone, ← h.notDone]

theorem State.Undisturbed.enterTable {s : State} (h : s.Undisturbed) (t : Table) : (s.enterTable t).Undisturbed :=
  { h with live := h.live }

theorem State.Undisturbed.startReplay {s : State} (h : s.Undisturbed) (t : Table) : (s.startReplay t).Undisturbed :=
  keeps_undisturbed.loadCount _ _ (h.enterTable t)

/-- `s` in another phase. -/
def State.inPhase (p : Phase) (s : State) : State := { s with phase := p }

theorem State.Live.inPhase {s : State} (h : s.Live) {p : Phase} (hp : p ≠ .waiting) : (s.inPhase p).Live := ⟨h.1, hp⟩

theorem State.Undisturbed.inPhase {s : State} (h : s.Undisturbed) {p : Phase} (hp : p ≠ .waiting) :
    (s.inPhase p).Undisturbed :=
  { h with live := h.live.inPhase hp }

section

variable {s : State} (h : s.Live) {p : Phase} (hp : p ≠ .waiting)
include h hp

theorem State.inPhase_emit (e : Event) : (s.inPhase p).emit e = (s.emit e).inPhase p := by
  rw [State.emit_of_live e h, State.emit_of_live e (h.inPhase hp)]
  rfl

/-- A Replay does the same in every phase the block can be live in. -/
theorem State.inPhase_replay (t : Table) : (s.inPhase p).replay t = (s.replay t).inPhase p := by
  rw [State.replay_of_live t h, State.replay_of_live t (h.inPhase hp)]
  rfl

theorem State.inPhase_configureBus (freq : U32) :
    (s.inPhase p).configureBus freq = (s.configureBus freq).inPhase p :=
  State.inPhase_emit (s := { s with busFreq := clockFor s.cfg freq }) h hp _

theorem State.inPhase_orient : (s.inPhase p).orient = s.orient.inPhase p := State.inPhase_emit h hp _

/-- `INIT` from any phase the block can be live in. -/
theorem State.inPhase_afterInit (freq : U32) :
    (s.inPhase p).afterInit freq =
      (((s.configureBus freq).replay .first).replay .second).orient.becomeReady.inPhase p := by
  have h0 : (s.configureBus freq).Live := State.emit_live _ h
  have h1 := keeps_live.replay .first _ h0
  have h2 := keeps_live.replay .second _ h1
  obtain ⟨heq, -⟩ := State.afterInit_of_live (h.inPhase hp) freq
  rw [heq, State.inPhase_configureBus h hp, State.inPhase_replay h0 hp, State.inPhase_replay h1 hp,
    State.inPhase_orient h2 hp]
  rfl

end

/-! ### A Replay one table form a step -/

theorem step_of_header {s : State} {t : Table} (h : s.Undisturbed) (hp : s.phase = .header t) :
    step s = .next ((s.loadCount (s.byteAhead 0)).enterRecords t) := by
  rw [step_of_busy (by simp [hp]) h.noReset, h.clearDone, State.stepBusy]
  simp only [hp]
  exact congrArg Host.Outcome.next (State.andThen_of_live _ h.live)

theorem step_of_records_end {s : State} {t : Table} (h : s.Undisturbed) (hp : s.phase = .records t)
    (h0 : s.remaining = 0) : step s = .next (s.leaveTable t) := by
  rw [step_of_busy (by simp [hp]) h.noReset, h.clearDone, State.stepBusy]
  simp only [hp]
  exact if_pos h0

theorem step_of_orientation {s : State} (h : s.Undisturbed) (hp : s.phase = .orientation) :
    step s = .next s.orient.becomeReady.complete := by
  have hl : s.orient.Live := State.emit_live _ h.live
  have hl' : s.orient.becomeReady.Live := hl
  rw [step_of_busy (by simp [hp]) h.noReset, h.clearDone, State.stepBusy]
  simp only [hp]
  calc (Host.Outcome.next (s.orient.andThen State.becomeReady).completeUnlessWaiting : Host.Outcome State Fault Refusal)
      = .next s.orient.becomeReady.completeUnlessWaiting := by rw [State.andThen_of_live _ hl]
    _ = .next s.orient.becomeReady.complete := congrArg _ (State.andThen_of_live _ hl')

theorem toNat_sub_one {b : Byte} {n : Nat} (h : b.toNat = n + 1) : (b - 1).toNat = n := by bv_omega

/-- The record loop, one turn a step: as many steps as there are records to do. -/
theorem State.reaches_runRecords {t : Table} : ∀ (n : Nat) {s : State}, s.Undisturbed → s.phase = .records t →
    s.remaining.toNat = n → s.Reaches (s.runRecords n)
  | 0, s, _, _, _ => .refl s
  | n + 1, s, h, hp, hn => by
    have hturn := State.runRecord_of_live h.live
    have hu : s.runRecord.Undisturbed := keeps_undisturbed.runRecord s h
    have hstep : step s = .next s.runRecord := by
      rw [step_of_records hp h.noReset (fun h0 => by simp [h0] at hn), h.clearDone]
    have hrest : s.runRecord.remaining.toNat = n := by
      rw [hturn]
      exact toNat_sub_one hn
    rw [State.runRecords, State.andThen_of_live _ hu.live]
    exact .head hstep (State.reaches_runRecords n hu (by rw [hturn]; exact hp) hrest)

/-- From the header byte of a table, one table form a step, the block leaves the table having made its Replay. -/
theorem State.reaches_leaveTable {s : State} (h : s.Undisturbed) (t : Table) :
    ((s.enterTable t).inPhase (.header t)).Reaches (((s.replay t).inPhase (.records t)).leaveTable t) := by
  have hrec : Phase.records t ≠ .waiting := by simp
  have hhead : ((s.enterTable t).inPhase (.header t)).Undisturbed := (h.enterTable t).inPhase (by simp)
  have hcount : step ((s.enterTable t).inPhase (.header t)) = .next ((s.inPhase (.records t)).startReplay t) :=
    step_of_header hhead rfl
  have hloop : ((s.inPhase (.records t)).startReplay t).Reaches ((s.replay t).inPhase (.records t)) := by
    rw [← State.inPhase_replay h.live hrec, State.replay_eq_recordLoop]
    exact State.reaches_runRecords _ ((h.inPhase hrec).startReplay t) rfl rfl
  have hend : ((s.replay t).inPhase (.records t)).Undisturbed := (keeps_undisturbed.replay t s h).inPhase hrec
  have h0 : ((s.replay t).inPhase (.records t)).remaining = 0 := by
    rw [State.replay_of_live t h.live]
    rfl
  exact .head hcount (hloop.trans (.head (step_of_records_end hend rfl h0) (.refl _)))

theorem State.leaveTable_first (p : Phase) (s : State) :
    (s.inPhase p).leaveTable .first = (s.enterTable .second).inPhase (.header .second) := rfl

theorem State.leaveTable_second (p : Phase) (s : State) :
    (s.inPhase p).leaveTable .second = s.inPhase .orientation := rfl

theorem State.complete_inPhase (p : Phase) (s : State) : (s.inPhase p).becomeReady.complete = s.becomeReady.complete := rfl

/-- From the header byte of the first table, one table form a step, `INIT` completes. -/
theorem State.reaches_init {s : State} (h : s.Undisturbed) :
    ((s.enterTable .first).inPhase (.header .first)).Reaches
      ((s.replay .first).replay .second).orient.becomeReady.complete := by
  have h1 := keeps_undisturbed.replay .first s h
  have h2 := keeps_undisturbed.replay .second _ h1
  have horientation : Phase.orientation ≠ .waiting := by simp
  have hfirst := State.reaches_leaveTable h .first
  have hsecond := State.reaches_leaveTable h1 .second
  have hlast := step_of_orientation (h2.inPhase horientation) rfl
  rw [State.leaveTable_first] at hfirst
  rw [State.leaveTable_second] at hsecond
  rw [State.inPhase_orient h2.live horientation, State.complete_inPhase] at hlast
  exact hfirst.trans (hsecond.trans (.head hlast (.refl _)))

/-- Settles O51: both grains end in the replays of both tables, the orientation command and the latching, whatever the
phase in between. -/
theorem stepwiseInitAgreesWithAtomicInit : Obligations.StepwiseInitAgreesWithAtomicInit := by
  intro freq s t hl hdone hrst hx
  have hbus : (s.configureBus freq).Undisturbed := keeps_undisturbed.emit _ _ ⟨hl, hrst, hdone⟩
  have ht : (s.inPhase .running).afterInit freq = t :=
    Host.Outcome.next.inj ((exec_init freq (s.inPhase .running)).symm.trans hx)
  rw [State.inPhase_afterInit hl (by simp)] at ht
  subst ht
  exact State.reaches_init hbus

end Sys2Proof.Machine
end

section
/-! SUPPORT. What a Replay reads: the table memory is fixed (spec/20_memory.md R53), a table depends on its own bytes and on
the parameters alone, and it is at most 33151 bytes long. -/

namespace Sys2Proof

open Machine

/-! ### Records of a stream of bytes -/

/-- A stream that goes on at `off` with the bytes of well-formed records has those records there (20_memory.md R68). -/
theorem recordsFrom_encodeRecords {rd : Nat → Byte} : ∀ {rs : List Record} {off : Nat}, (∀ r ∈ rs, r.wf) →
    (∀ k < (rs.flatMap encodeRecord).length, rd (off + k) = (rs.flatMap encodeRecord).getD k 0) →
      recordsFrom rd rs.length off = rs
  | [], _, _, _ => rfl
  | r :: rs, off, hwf, he => by
    have hlen := encodeRecord_length r
    simp only [List.flatMap_cons, List.length_append] at he
    have hhead : recordFrom (fun k => rd (off + k)) = r :=
      recordFrom_encodeRecord r (hwf r (by simp)) _ fun k hk => by
        rw [he k (by omega), List.getD_append _ _ _ _ hk]
    have htail : recordsFrom rd rs.length (off + r.size) = rs :=
      recordsFrom_encodeRecords (fun q hq => hwf q (by simp [hq])) fun k hk => by
        rw [Nat.add_assoc, he (r.size + k) (by omega), ← hlen, List.getD_append_right _ _ _ _ (by omega),
          Nat.add_sub_cancel_left]
    rw [List.length_cons, recordsFrom, hhead, htail]

/-- A stream that begins with the bytes of a table begins with that table. -/
theorem tableFrom_encodeTable {rd : Nat → Byte} {rs : List Record} (hn : rs.length ≤ 255) (hwf : ∀ r ∈ rs, r.wf)
    (he : ∀ k < (encodeTable rs).length, rd k = (encodeTable rs).getD k 0) : tableFrom rd = rs := by
  have hcount : (rd 0).toNat = rs.length := by
    rw [he 0 (by simp [encodeTable])]
    simp [encodeTable]
    omega
  rw [tableFrom, hcount]
  refine recordsFrom_encodeRecords hwf fun k hk => ?_
  rw [Nat.add_comm, he (k + 1) (by simpa [encodeTable] using hk)]
  rfl

/-- Two streams that agree on the bytes of the table in the one hold the same table. -/
theorem tableFrom_congr {rd rd' : Nat → Byte} (h : ∀ k < tableSize (tableFrom rd), rd k = rd' k) :
    tableFrom rd = tableFrom rd' := by
  have h0 : rd 0 = rd' 0 := h 0 (by simp only [tableSize]; omega)
  rw [tableFrom, tableFrom, ← h0]
  exact recordsFrom_congr _ _ fun k hk => h (1 + k) (Nat.add_lt_add_left hk 1)

/-- A record of a stream is at most its head, 127 arguments and a delay byte (30_encoding.md R89). -/
theorem recordFrom_size_le (rd : Nat → Byte) : (recordFrom rd).size ≤ 130 := by
  have hargs : argCount (rd 1) ≤ 127 := argCount_le _
  rw [recordFrom_size, recordLength]
  split <;> omega

theorem recordsFrom_size_le (rd : Nat → Byte) : ∀ n off, ∀ r ∈ recordsFrom rd n off, r.size ≤ 130
  | 0, _, _, hr => by simp [recordsFrom] at hr
  | n + 1, off, r, hr => by
    rcases List.mem_cons.mp hr with rfl | hr
    · exact recordFrom_size_le _
    · exact recordsFrom_size_le rd n _ r hr

/-- No header byte announces more than 255 records (R89). -/
theorem tableSize_tableFrom_le (rd : Nat → Byte) : tableSize (tableFrom rd) ≤ 33151 := by
  have hcount : (rd 0).toNat < 256 := (rd 0).isLt
  have hsum := List.sum_le_card_nsmul ((tableFrom rd).map Record.size) 130 (by
    intro n hn
    obtain ⟨r, hr, rfl⟩ := List.mem_map.mp hn
    exact recordsFrom_size_le _ _ _ r hr)
  rw [List.length_map, tableFrom, recordsFrom_length, smul_eq_mul] at hsum
  rw [tableSize, tableFrom]
  omega

end Sys2Proof

namespace Sys2Proof.Machine

/-! ### The table memory through a run -/

theorem State.memRead_congr {s u : State} (hc : u.cfg = s.cfg) (hr : u.rom = s.rom) (a : Nat) :
    u.memRead a = s.memRead a := by
  rw [State.memRead, State.memRead, State.romData, State.romData, hc, hr]

/-- A table is a function of the parameters and the table memory (40_table_records.md R110). -/
theorem State.tableAt_congr {s u : State} (hc : u.cfg = s.cfg) (hr : u.rom = s.rom) (base : Nat) :
    u.tableAt base = s.tableAt base := by
  rw [State.tableAt, State.tableAt, hc]
  exact congrArg tableFrom (funext fun k => State.memRead_congr hc hr _)

theorem State.memRead_addrAdd (s : State) (base k : Nat) :
    s.memRead (addrAdd s.cfg base k) = s.rom.read ((base + k) % 2 ^ s.cfg.addrW) := by
  rw [State.memRead, addrAdd, Nat.mod_mod]
  rfl

theorem State.WellFormedTable.tableAt {s : State} {base : Nat} {rs : List Record} (h : s.WellFormedTable base rs) :
    s.tableAt base = rs := by
  obtain ⟨hn, hwf, hfits, hbytes⟩ := h
  refine tableFrom_encodeTable hn hwf fun k hk => ?_
  rw [State.memRead_addrAdd, Nat.mod_eq_of_lt (by omega), hbytes k hk]

/-- A table is the same under another table memory that agrees with this one on its bytes. -/
theorem State.tableAt_withRom {s : State} {base : Nat} {m : Memory}
    (h : ∀ k < tableSize (s.tableAt base),
      m.read ((base + k) % 2 ^ s.cfg.addrW) = s.rom.read ((base + k) % 2 ^ s.cfg.addrW)) :
    State.tableAt { s with rom := m } base = s.tableAt base := by
  refine (tableFrom_congr fun k hk => ?_).symm
  rw [State.memRead_addrAdd, ← h k hk]
  exact (State.memRead_addrAdd { s with rom := m } base k).symm

/-- The port's history after more addresses have been driven on it (20_memory.md R67). -/
theorem State.romPort_append {s u : State} {addrs : List Nat} (hr : u.rom = s.rom) (ha : u.reads = s.reads ++ addrs) :
    u.romPort = s.romPort ++ addrs.map fun a => (a, s.rom.read a) := by
  simp [State.romPort, State.romData, hr, ha]

theorem keeps_cfgAndRom (p : Params) (m : Memory) : Keeps fun u => u.cfg = p ∧ u.rom = m :=
  ⟨fun _ _ h => h, fun _ _ _ _ _ _ _ _ h => h⟩

theorem State.replay_cfgAndRom (t : Table) (s : State) : (s.replay t).cfg = s.cfg ∧ (s.replay t).rom = s.rom :=
  (keeps_cfgAndRom s.cfg s.rom).replay t s ⟨rfl, rfl⟩

@[simp] theorem State.replay_cfg (t : Table) (s : State) : (s.replay t).cfg = s.cfg := (s.replay_cfgAndRom t).1
@[simp] theorem State.replay_rom (t : Table) (s : State) : (s.replay t).rom = s.rom := (s.replay_cfgAndRom t).2

theorem cfgAndRom_andThen {p : Params} {m : Memory} {s : State} {f : State → State} (hs : s.cfg = p ∧ s.rom = m)
    (hf : ∀ u, u.cfg = p ∧ u.rom = m → (f u).cfg = p ∧ (f u).rom = m) : (s.andThen f).cfg = p ∧ (s.andThen f).rom = m :=
  keeps_andThen (P := fun u => u.cfg = p ∧ u.rom = m) f hs hf

/-- No step writes a parameter or the table memory (20_memory.md R53). -/
theorem step_keeps_cfgAndRom {s t : State} (h : step s = .next t) : t.cfg = s.cfg ∧ t.rom = s.rom := by
  have K := keeps_cfgAndRom s.cfg s.rom
  have hs : s.clearDone.cfg = s.cfg ∧ s.clearDone.rom = s.rom := ⟨rfl, rfl⟩
  cases step_answer h with
  | rest => exact hs
  | reset => exact hs
  | request r rest u hp hin hx =>
    obtain ⟨hc, hr, -, -⟩ := exec_keeps_environment hx
    exact cfgAndRom_andThen ⟨hc, hr⟩ fun _ hv => hv
  | header tb => exact cfgAndRom_andThen (K.loadCount _ _ hs) fun _ hv => hv
  | leaveTable tb => cases tb <;> exact hs
  | record => exact K.runRecord _ hs
  | orientation => exact cfgAndRom_andThen (cfgAndRom_andThen (K.emit _ _ hs) fun _ hv => hv) fun _ hv => hv
  | send i rest u hp hx =>
    obtain ⟨hc, hr, -, -⟩ := exec_keeps_environment hx
    refine cfgAndRom_andThen ⟨hc, hr⟩ fun v hv => ?_
    cases rest <;> exact hv
  | finish => exact hs
  | hang => exact hs

/-- Settles O39: every answer of a step keeps both, and a read depends on nothing else. -/
theorem stepKeepsTableMemoryAndParameters : Obligations.StepKeepsTableMemoryAndParameters := by
  intro s t h
  obtain ⟨hc, hr⟩ := step_keeps_cfgAndRom h
  exact ⟨hc, hr, State.memRead_congr hc hr⟩

/-- Settles O49, by induction on the authored records (`recordsFrom_encodeRecords`). -/
theorem wellFormedTableDecodesToItsRecords : Obligations.WellFormedTableDecodesToItsRecords :=
  fun _ _ _ => State.WellFormedTable.tableAt

/-- Settles O55: the history of reads grows by the addresses of the decoded table. -/
theorem replayReadsExactlyItsTable : Obligations.ReplayReadsExactlyItsTable := by
  intro s t h
  have hreads : (s.replay t).reads =
      s.reads ++ addrsFrom s.cfg (tableBase s.cfg t) (tableSize (s.tableAt (tableBase s.cfg t))) := by
    rw [State.replay_of_live t h]
  refine ⟨?_, tableSize_tableFrom_le _⟩
  rw [State.romPort_append (s.replay_rom t) hreads, addrsFrom, List.map_map]
  rfl

/-- Settles O56: the state a Replay leaves is a function of the decoded table, and the table of its bytes. -/
theorem replayDependsOnlyOnTheBytesItReads : Obligations.ReplayDependsOnlyOnTheBytesItReads := by
  intro s t m h hbytes
  have hm : State.Live { s with rom := m } := h
  rw [State.replay_of_live t h, State.replay_of_live t hm, State.tableAt_withRom hbytes]
  rfl

end Sys2Proof.Machine
end

section
/-! SUPPORT. The commands of a busy block that sends them one a step, and the two grains of `SET_WINDOW`
(spec/20_memory.md R64). -/

namespace Sys2Proof.Machine

/-- Nothing is raised and nothing is refused (60_exceptions.md R180). -/
theorem exec_next (i : Instr) (s : State) : ∃ t, exec i s = .next t := by
  cases i <;> exact ⟨_, rfl⟩

theorem step_of_sending {s t : State} {i : Instr} {rest : List Instr} (hr : Input.rst ∉ s.inputs)
    (hp : s.phase = .sending (i :: rest)) (hx : exec i s.clearDone = .next t) :
    step s = .next (t.andThen (State.sendRest rest)) := by
  have hp' : s.clearDone.phase = .sending (i :: rest) := hp
  rw [step_of_busy (by simp [hp]) hr, State.stepBusy]
  simp only [hp', hx]
  rfl

theorem State.sendRest_eq (rest : List Instr) (s : State) :
    s.sendRest rest = if rest = [] then s.complete else s.inPhase (.sending rest) := by
  cases rest <;> rfl

/-- Settles O30: the step runs `exec` of the first command, then `State.sendRest`. -/
theorem stepRunsTheNextCommandToSend : Obligations.StepRunsTheNextCommandToSend := by
  intro s i rest hr hp
  obtain ⟨t, hx⟩ := exec_next i s.clearDone
  refine ⟨t, hx, ?_⟩
  rw [step_of_sending hr hp hx, State.andThen, State.sendRest_eq]
  rfl

theorem exec_emission {s : State} {i : Instr} {e : Event} (hi : i.isEmission = true) (he : s.eventsOf i = [e]) :
    exec i s = .next (s.emit e) := by
  obtain ⟨e', he', hx⟩ := exec_of_isEmission hi s
  cases he.symm.trans he'
  exact hx

/-- The phase does not shape an event. -/
theorem State.eventsOf_inPhase (p : Phase) (s : State) {i : Instr} (hi : i.isEmission = true) :
    (s.inPhase p).eventsOf i = s.eventsOf i := by
  cases i <;> cases hi <;> rfl

theorem State.sendRest_inPhase (rest : List Instr) (p : Phase) (s : State) :
    (s.inPhase p).sendRest rest = s.sendRest rest := by
  cases rest <;> rfl

/-- A step of an undisturbed block that sends a command of one event. -/
theorem step_of_sending_emission {s : State} {i : Instr} {rest : List Instr} {e : Event} (h : s.Undisturbed)
    (hi : i.isEmission = true) (he : s.eventsOf i = [e]) :
    step (s.inPhase (.sending (i :: rest))) = .next ((s.emit e).sendRest rest) := by
  have hsending : Phase.sending (i :: rest) ≠ .waiting := by simp
  have hs := h.inPhase hsending
  have hx : exec i (s.inPhase (.sending (i :: rest))).clearDone = .next ((s.emit e).inPhase (.sending (i :: rest))) := by
    rw [hs.clearDone, exec_emission hi ((s.eventsOf_inPhase _ hi).trans he), State.inPhase_emit h.live hsending]
  rw [step_of_sending hs.noReset rfl hx, State.andThen_of_live _ ((State.emit_live e h.live).inPhase hsending),
    State.sendRest_inPhase]

/-- `SET_WINDOW`, when every event is completed: its three transactions one after the other (41_host_operations.md R132). -/
theorem State.sendWindow_of_live {s : State} (h : s.Live) (xs xe ys ye : U16) :
    s.sendWindow xs xe ys ye =
      ((s.emit (.txn s.cfg.opcCaset (windowArgs xs xe))).emit (.txn s.cfg.opcRaset (windowArgs ys ye))).emit
        (.txn s.cfg.opcRamwr []) := by
  have h1 := State.emit_live (.txn s.cfg.opcCaset (windowArgs xs xe)) h
  have h2 := State.emit_live (.txn s.cfg.opcRaset (windowArgs ys ye)) h1
  rw [State.sendWindow, State.sendCommand, State.andThen_of_live _ h1]
  exact State.andThen_of_live _ h2

/-- `SET_WINDOW` does the same in every phase the block can be live in. -/
theorem State.inPhase_sendWindow {s : State} (h : s.Live) {p : Phase} (hp : p ≠ .waiting) (xs xe ys ye : U16) :
    (s.inPhase p).sendWindow xs xe ys ye = (s.sendWindow xs xe ys ye).inPhase p := by
  have h1 := State.emit_live (.txn s.cfg.opcCaset (windowArgs xs xe)) h
  have h2 := State.emit_live (.txn s.cfg.opcRaset (windowArgs ys ye)) h1
  have hcfg : (s.inPhase p).cfg = s.cfg := rfl
  rw [State.sendWindow_of_live h, State.sendWindow_of_live (h.inPhase hp), hcfg, State.inPhase_emit h hp,
    State.inPhase_emit h1 hp, State.inPhase_emit h2 hp]

/-- The three commands of a window, one a step. -/
theorem run_sendWindow {s : State} (h : s.Undisturbed) (xs xe ys ye : U16) :
    Sys2Proof.core.run 3 (s.inPhase (.sending [.caset xs xe, .raset ys ye, .ramwr])) =
      .next (s.sendWindow xs xe ys ye).complete := by
  have h1 := keeps_undisturbed.emit (.txn s.cfg.opcCaset (windowArgs xs xe)) _ h
  have h2 := keeps_undisturbed.emit (.txn s.cfg.opcRaset (windowArgs ys ye)) _ h1
  have hcaset := step_of_sending_emission (i := .caset xs xe) (rest := [.raset ys ye, .ramwr]) h rfl rfl
  have hraset := step_of_sending_emission (i := .raset ys ye) (rest := [.ramwr]) h1 rfl rfl
  have hramwr := step_of_sending_emission (i := .ramwr) (rest := []) h2 rfl rfl
  rw [run_succ_of_step hcaset, State.sendWindow_of_live h.live]
  exact (run_succ_of_step hraset 1).trans (run_succ_of_step hramwr 0)

/-- Settles O52: both grains end in the three transactions, whatever the phase in between. -/
theorem stepwiseWindowAgreesWithAtomicWindow : Obligations.StepwiseWindowAgreesWithAtomicWindow := by
  intro x y w h s t hl hdone hrst hx
  have ht : (s.inPhase .running).afterSetWindow x y w h = t :=
    Host.Outcome.next.inj ((exec_setWindow x y w h (s.inPhase .running)).symm.trans hx)
  rw [State.afterSetWindow, State.inPhase_sendWindow hl (by simp)] at ht
  subst ht
  exact run_sendWindow ⟨hl, hrst, hdone⟩ _ _ _ _

end Sys2Proof.Machine
end

section
/-! SUPPORT. The events of every instruction, when the collaborators complete them (spec/20_memory.md R62). -/

namespace Sys2Proof.Machine

@[simp] theorem State.configureBus_cfg (freq : U32) (s : State) : (s.configureBus freq).cfg = s.cfg := rfl
@[simp] theorem State.configureBus_rom (freq : U32) (s : State) : (s.configureBus freq).rom = s.rom := rfl
@[simp] theorem State.configureBus_trace (freq : U32) (s : State) :
    (s.configureBus freq).trace = s.trace ++ [.cfg (clockFor s.cfg freq) s.cfg.transferMode] := rfl
@[simp] theorem State.orient_trace (s : State) :
    s.orient.trace = s.trace ++ [.txn s.cfg.opcMadctl [s.cfg.madctlValue]] := rfl

/-- A Replay emits the events of its table (40_table_records.md R110). -/
theorem State.replay_trace_of_live (t : Table) {s : State} (h : s.Live) :
    (s.replay t).trace = s.trace ++ tableEvents (s.tableAt (tableBase s.cfg t)) := by
  rw [State.replay_of_live t h]

/-- The events of `INIT` (41_host_operations.md R131). -/
theorem State.afterInit_trace_of_live {s : State} (h : s.Live) (freq : U32) :
    (s.afterInit freq).trace = s.trace ++ s.initEvents freq := by
  have h0 : (s.configureBus freq).Live := State.emit_live _ h
  have h1 := keeps_live.replay .first _ h0
  have hfirst : (s.configureBus freq).tableAt s.cfg.table1Base = s.tableAt s.cfg.table1Base :=
    State.tableAt_congr rfl rfl _
  have hsecond : ((s.configureBus freq).replay .first).tableAt s.cfg.table2Base = s.tableAt s.cfg.table2Base :=
    State.tableAt_congr (by simp) (by simp) _
  obtain ⟨heq, -⟩ := State.afterInit_of_live h freq
  simp [heq, State.replay_trace_of_live .second h1, State.replay_trace_of_live .first h0, hfirst, hsecond, tableBase,
    State.initEvents]

/-- The events of an instruction are those of its rule. -/
theorem exec_trace_of_live {i : Instr} {s t : State} (h : s.Live) (hx : exec i s = .next t) :
    t.trace = s.trace ++ s.eventsOf i := by
  cases exec_answer hx with
  | count n => simp [State.eventsOf]
  | cmd op args => rw [State.sendRecord_of_live _ _ h]; rfl
  | cmdd op args ms => rw [State.sendRecordThenDelay_of_live _ _ _ h]; rfl
  | init freq => exact State.afterInit_trace_of_live h freq
  | setWindow x y w h' => simp [State.afterSetWindow, State.sendWindow_of_live h, State.eventsOf]
  | setOffsets c r => simp [State.eventsOf]
  | nop _ hi => obtain rfl | rfl | rfl := hi <;> simp [State.eventsOf]
  | emission _ e hi he => simp [he]

/-- With collaborators that complete every event, an instruction leaves the block live. -/
theorem exec_keeps_live {i : Instr} {s t : State} (h : s.Live) (hx : exec i s = .next t) : t.Live :=
  keeps_live.exec (fun _ _ => ⟨fun _ _ h => h, fun _ h => h⟩) (fun _ _ _ => h) h hx

/-- An instruction changes the phase only to begin a wait. -/
theorem exec_phase {i : Instr} {s t : State} (hx : exec i s = .next t) : t.phase = s.phase ∨ t.phase = .waiting :=
  (keeps_phaseOrWaits s.phase).exec (fun _ _ => ⟨fun _ _ h => h, fun _ h => h⟩) (fun _ _ _ => .inl rfl) (.inl rfl) hx

/-- Settles O36: a live block answers every instruction with its events, and stays live in its phase. -/
theorem everyInstructionEmitsItsEvents : Obligations.EveryInstructionEmitsItsEvents := by
  intro i s h
  obtain ⟨t, hx⟩ := exec_next i s
  obtain ⟨hcomplete, hwait⟩ := exec_keeps_live h hx
  exact ⟨t, hx, exec_trace_of_live h hx, (exec_phase hx).resolve_right hwait, hcomplete⟩

end Sys2Proof.Machine
end

section
/-! SUPPORT. The bytes of records and tables, read in both directions (spec/30_encoding.md R70 to R74, R88, R89). -/

namespace Sys2Proof

open Machine

/-! ### The arg-spec byte -/

/-- Settles O8: the two fields as arithmetic, from the lemmas on the arg-spec byte. -/
theorem argSpecFieldsAreBitSevenAndLowSeven : Obligations.ArgSpecFieldsAreBitSevenAndLowSeven :=
  fun spec => ⟨argCount_toNat spec, by simp [delayFollows_toNat]⟩

/-! ### One record -/

/-- What the decoder reads as a record has an argument list its 7-bit count has room for (R73). -/
theorem recordFrom_wf (rd : Nat → Byte) : (recordFrom rd).wf := by
  simpa [Record.wf, recordFrom] using argCount_le (rd 1)

/-- The serialisation of the record at the start of a stream is the bytes it was read from: no bit is dropped (R70, R74). -/
theorem encodeRecord_recordFrom (rd : Nat → Byte) :
    encodeRecord (recordFrom rd) = (List.range (recordLength (rd 1))).map rd := by
  have hspec : argSpec (recordFrom rd).args.length (recordFrom rd).delay.isSome = rd 1 := by
    rw [← argSpec_fields (rd 1)]
    by_cases hd : delayFollows (rd 1) = true <;> simp [recordFrom, hd]
  rw [encodeRecord, hspec, recordLength, List.range_add, List.range_add]
  by_cases hd : delayFollows (rd 1) = true <;> simp [recordFrom, hd, List.range_succ]

/-- A list of bytes is read as a record exactly when it is as long as its second byte announces (R88). -/
theorem decodeRecord_eq_ok_iff {bytes rest : List Byte} {r : Record} :
    decodeRecord bytes = .ok (r, rest) ↔ recordLength (bytes.getD 1 0) ≤ bytes.length ∧
      recordFrom (bytes.getD · 0) = r ∧ bytes.drop (recordLength (bytes.getD 1 0)) = rest := by
  have hshort : (bytes.length < 2 ∨ bytes.length < recordLength (bytes.getD 1 0)) ↔
      ¬ recordLength (bytes.getD 1 0) ≤ bytes.length := by
    rw [recordLength]
    omega
  rw [decodeRecord, if_congr hshort rfl rfl]
  by_cases hlong : recordLength (bytes.getD 1 0) ≤ bytes.length
  · simp only [hlong, not_true, if_false, Except.ok.injEq, Prod.mk.injEq, true_and]
  · simp only [hlong, not_false_iff, if_true, reduceCtorEq, false_and]

/-- A record is read back from its serialisation, with whatever stands after it untouched. -/
theorem decodeRecord_encodeRecord_append {r : Record} (h : r.wf) (rest : List Byte) :
    decodeRecord (encodeRecord r ++ rest) = .ok (r, rest) := by
  have hspec : (encodeRecord r ++ rest).getD 1 0 = argSpec r.args.length r.delay.isSome := rfl
  refine decodeRecord_eq_ok_iff.mpr ?_
  rw [hspec, recordLength_argSpec r h, ← encodeRecord_length r]
  refine ⟨by simp, recordFrom_encodeRecord r h _ fun k hk => ?_, List.drop_left⟩
  exact List.getD_append _ _ _ _ hk

/-- The form of a record is read back from the record's bytes. -/
theorem decode_encodeRecord (p : Params) {r : Record} (h : r.wf) :
    decode p (.record (encodeRecord r)) = .ok r.toInstr := by
  have hdecode := decodeRecord_encodeRecord_append h []
  rw [List.append_nil] at hdecode
  simp only [decode, hdecode]

/-- Settles O24: a stream's first record is serialised as its own bytes (`encodeRecord_recordFrom`), here all of them. -/
theorem recordBytesAreTheRecordsSerialisation : Obligations.RecordBytesAreTheRecordsSerialisation := by
  intro bytes r h
  obtain ⟨hlong, rfl, hrest⟩ := decodeRecord_eq_ok_iff.mp h
  have hlen : recordLength (bytes.getD 1 0) = bytes.length := Nat.le_antisymm hlong (List.drop_eq_nil_iff.mp hrest)
  rw [encodeRecord_recordFrom, hlen]
  exact List.ext_getElem (by simp) fun i _ hi => by simp [hi]

/-- Settles O25: the bytes at the cursor are the serialisation of the record read there, which reads back. -/
theorem everyByteSequenceDecodes : Obligations.EveryByteSequenceDecodes := by
  intro s
  have hbytes : s.recordBytes = encodeRecord s.recordHere := (encodeRecord_recordFrom s.byteAhead).symm
  refine ⟨by simp [State.recordBytes], ?_⟩
  rw [hbytes]
  exact decode_encodeRecord s.cfg s.recordHere_args_le

/-! ### Tables -/

theorem decodeRecords_encodeRecords_append : ∀ {rs : List Record} (rest : List Byte), (∀ r ∈ rs, r.wf) →
    decodeRecords rs.length (rs.flatMap encodeRecord ++ rest) = .ok (rs, rest)
  | [], _, _ => rfl
  | r :: rs, rest, hwf => by
    have hhead := decodeRecord_encodeRecord_append (hwf r (by simp)) (rs.flatMap encodeRecord ++ rest)
    have htail := decodeRecords_encodeRecords_append (rs := rs) rest fun q hq => hwf q (by simp [hq])
    simp only [List.flatMap_cons, List.append_assoc, List.length_cons, decodeRecords, hhead, htail]

/-- Settles O23, by induction on the records; the header byte has room for their number. -/
theorem tableSerialisationReadsBack : Obligations.TableSerialisationReadsBack := by
  intro rs rest hn hwf
  have hcount : (BitVec.ofNat 8 rs.length).toNat = rs.length := Nat.mod_eq_of_lt (Nat.lt_succ_of_le hn)
  rw [encodeTable, List.cons_append, decodeTable, hcount]
  exact decodeRecords_encodeRecords_append rest hwf

/-- Every record of a table read from a stream fits its 7-bit count. -/
theorem recordsFrom_wf (rd : Nat → Byte) : ∀ n off, ∀ r ∈ recordsFrom rd n off, r.wf
  | 0, _, _, hr => by simp [recordsFrom] at hr
  | n + 1, off, r, hr => by
    rcases List.mem_cons.mp hr with rfl | hr
    · exact recordFrom_wf _
    · exact recordsFrom_wf rd n _ r hr

/-- Settles O26: the header byte bounds the number of records, the 7-bit count each record. -/
theorem tableSizeIsBounded : Obligations.TableSizeIsBounded := by
  intro s base
  exact ⟨recordsFrom_length _ _ _, Nat.le_add_right _ _, tableSize_tableFrom_le _, recordsFrom_wf _ _ _⟩

end Sys2Proof
end

section
/-! SUPPORT. Requests, own commands and beats: what each is read as, and the round trip of every instruction
(spec/30_encoding.md R79 to R87, 42_dispatcher_primitives.md R167). -/

namespace Sys2Proof

open Machine

/-! ### Host requests -/

/-- Settles O9: the operation of each code, whatever the operand fields are. -/
theorem requestsReadOnlyTheirOwnFields : Obligations.RequestsReadOnlyTheirOwnFields := by
  rintro ⟨op, x, y, w, h, freq, en⟩
  refine ⟨?_, ?_, ?_, ?_, ?_, ?_, ?_, ?_⟩ <;> rintro rfl <;> rfl

/-! ### The block's own commands -/

/-- A live block answers an instruction of one event with that event appended and nothing else changed. -/
theorem exec_emission_of_live {s : State} {i : Instr} {e : Event} (h : s.Live) (hi : i.isEmission = true)
    (he : s.eventsOf i = [e]) : exec i s = .next { s with trace := s.trace ++ [e] } := by
  rw [exec_emission hi he, State.emit_of_live e h]

/-- Settles O17: each is one emission (`exec_emission_of_live`), and a window's bytes are those of its two coordinates. -/
theorem ownCommandsAreOneTransactionEach : Obligations.OwnCommandsAreOneTransactionEach := by
  intro s h
  refine ⟨fun a b => ?caset, fun a b => ?raset, ?_, ?_, ?_, ?_, ?_, ?_⟩
  case caset | raset =>
    rw [← windowArgs_eq]
    exact exec_emission_of_live h rfl rfl
  all_goals exact exec_emission_of_live h rfl rfl

/-- The first coordinate of a window is its two high bytes, the second its two low ones (30_encoding.md R83). -/
theorem windowArgs_bytes (start stop : U16) :
    ∃ a b c d : Byte, windowArgs start stop = [a, b, c, d] ∧ a ++ b = start ∧ c ++ d = stop := by
  have hstart := start.isLt
  have hstop := stop.isLt
  refine ⟨_, _, _, _, windowArgs_eq start stop, ?_, ?_⟩ <;> apply BitVec.eq_of_toNat_eq <;>
    simp only [append_toNat, BitVec.toNat_ofNat] <;> omega

theorem decodeCommand_caset (p : Params) (xs xe : U16) :
    decodeCommand p (p.opcCaset :: windowArgs xs xe) = .ok (.caset xs xe) := by
  obtain ⟨a, b, c, d, hbytes, rfl, rfl⟩ := windowArgs_bytes xs xe
  simp [hbytes, decodeCommand]

theorem decodeCommand_raset {p : Params} (h : p.opcodesDistinct) (ys ye : U16) :
    decodeCommand p (p.opcRaset :: windowArgs ys ye) = .ok (.raset ys ye) := by
  obtain ⟨a, b, c, d, hbytes, rfl, rfl⟩ := windowArgs_bytes ys ye
  have hne : p.opcRaset ≠ p.opcCaset := by simp_all [Params.opcodesDistinct, eq_comm]
  simp [hbytes, decodeCommand, hne]

/-- The five commands without arguments, each read by its opcode (R82). -/
theorem decodeCommand_bare {p : Params} (h : p.opcodesDistinct) :
    decodeCommand p [p.opcRamwr] = .ok .ramwr ∧ decodeCommand p [p.opcDispon] = .ok .dispon ∧
      decodeCommand p [p.opcDispoff] = .ok .dispoff ∧ decodeCommand p [p.opcTeon] = .ok .teon ∧
      decodeCommand p [p.opcTeoff] = .ok .teoff := by
  simp_all [Params.opcodesDistinct, decodeCommand, eq_comm]

theorem decodeCommand_madctl (p : Params) : decodeCommand p [p.opcMadctl, p.madctlValue] = .ok .madctl := by
  simp [decodeCommand]

/-! ### The call forms of a transaction -/

theorem sendForm_be32 (op : Byte) (v : U32) : sendForm op (be32 v) = .write32 op v := by
  obtain ⟨a, b, c, d, hbytes, rfl⟩ := append_be32 v
  rw [hbytes, sendForm]

theorem sendForm_of_length {op : Byte} {args : List Byte} (h0 : args.length ≠ 0) (h4 : args.length ≠ 4) :
    sendForm op args = .sendCommand op args := by
  unfold sendForm
  split
  · exact absurd rfl h0
  · exact absurd rfl h4
  · rfl

/-- Whichever call form a transaction is read as, its meaning is the transaction (30_encoding.md R85). -/
theorem exec_sendForm (op : Byte) (args : List Byte) (s : State) :
    exec (sendForm op args) s = .next (s.sendCommand op args) := by
  unfold sendForm
  split
  next => rfl
  next a b c d => rw [← be32_append a b c d]; rfl
  next => rfl

/-- Settles O20: the one instruction whose form can change is `SendCommand`, read as `sendForm`. -/
theorem callFormsOfATransactionAgree : Obligations.CallFormsOfATransactionAgree := by
  intro i s
  cases i with
  | sendCommand op args => exact exec_sendForm op args s
  | _ => rfl

/-! ### Decode and encode -/

/-- Settles O21: every word but the `RASET` one evaluates under opaque parameters; that one turns on the opcode. -/
theorem wordsOfTheEncodingsDecode : Obligations.WordsOfTheEncodingsDecode :=
  ⟨fun _ => rfl, fun _ => rfl, fun _ => rfl, fun _ => rfl, fun _ h => decodeCommand_raset h 20 24, fun _ => rfl⟩

/-- Every well-formed instruction is read back from its encoding as its normal form. -/
theorem decode_encode {p : Params} {i : Instr} (hp : p.opcodesDistinct) (hwf : i.wellFormed = true) :
    decode p (encode p i) = .ok i.normal := by
  obtain ⟨hramwr, hdispon, hdispoff, hteon, hteoff⟩ := decodeCommand_bare hp
  cases i with
  | cmd op args => exact decode_encodeRecord p (r := ⟨op, args, none⟩) (of_decide_eq_true hwf)
  | cmdd op args ms => exact decode_encodeRecord p (r := ⟨op, args, some ms⟩) (of_decide_eq_true hwf)
  | caset xs xe => exact decodeCommand_caset p xs xe
  | raset ys ye => exact decodeCommand_raset hp ys ye
  | madctl => exact decodeCommand_madctl p
  | ramwr => exact hramwr
  | dispon => exact hdispon
  | dispoff => exact hdispoff
  | teon => exact hteon
  | teoff => exact hteoff
  | sendCommand op args => exact decodeBeats_txnBeats op args (of_decide_eq_true hwf)
  | write32 op v =>
    have hbeats := decodeBeats_txnBeats op (be32 v) (by simp [be32, maxArgs])
    rwa [sendForm_be32] at hbeats
  | count _ | sendCommand0 _ | configure _ _ | delay _ => rfl
  | nop000 | init _ | setWindow _ _ _ _ | setOffsets _ _ | setDisplay _ | setTearing _ | nop110 | nop111 => rfl

/-- Settles O22: `decode_encode`, and what the normal form of a `SendCommand` of each length is. -/
theorem decodeOfEncodeIsTheInstruction : Obligations.DecodeOfEncodeIsTheInstruction := by
  refine ⟨fun p i => decode_encode, fun i hi => ?_, fun op => rfl, fun op v => ?_⟩
  · cases i with
    | sendCommand op args =>
      obtain ⟨h0, h4⟩ := hi op args rfl
      exact sendForm_of_length h0 h4
    | _ => rfl
  · rw [← be32_eq]
    exact sendForm_be32 op v

end Sys2Proof
end

section
/-! SUPPORT. The table forms and the record loop, register by register: what each form leaves, what a step of the loop does
with the bytes at the cursor, and what a Replay leaves (spec/40_table_records.md R100 to R107). -/

namespace Sys2Proof.Machine

/-! ### The bytes at the cursor -/

/-- The bytes from the cursor up are those of the table memory, addresses wrapping (20_memory.md R54, R60). -/
theorem State.byteAhead_eq_rom (s : State) : s.byteAhead = fun k => s.rom.read ((s.cursor + k) % 2 ^ s.cfg.addrW) :=
  funext fun k => s.memRead_addrAdd s.cursor k

/-- What the record at the start of a stream puts on the bus, the fields of its arg-spec byte as arithmetic (30_encoding.md
R73; 40_table_records.md R107). -/
theorem recordFrom_events (rd : Nat → Byte) : (recordFrom rd).events =
    [.txn (rd 0) ((List.range ((rd 1).toNat % 128)).map fun i => rd (2 + i))] ++
      if 128 ≤ (rd 1).toNat then [.delay (rd (2 + (rd 1).toNat % 128))] else [] := by
  by_cases hd : 128 ≤ (rd 1).toNat <;> simp [Record.events, recordFrom, argCount_toNat, delayFollows_toNat, hd]

theorem recordLength_toNat (spec : Byte) :
    recordLength spec = 2 + spec.toNat % 128 + if 128 ≤ spec.toNat then 1 else 0 := by
  simp only [recordLength, argCount_toNat, delayFollows_toNat, decide_eq_true_eq]

/-- What a delay register that held `old` holds after the record at the start of a stream (10_state.md R26). -/
theorem recordFrom_delay_getD (rd : Nat → Byte) (old : Byte) : (recordFrom rd).delay.getD old =
    if 128 ≤ (rd 1).toNat then rd (2 + (rd 1).toNat % 128) else old := by
  by_cases hd : 128 ≤ (rd 1).toNat <;> simp [recordFrom, argCount_toNat, delayFollows_toNat, hd]

/-- The argument count fits the 7-bit `argIdx` (10_state.md R25). -/
theorem argIdx_toNat {args : List Byte} (h : args.length ≤ 127) : (BitVec.ofNat 7 args.length).toNat = args.length :=
  Nat.mod_eq_of_lt (Nat.lt_succ_of_le h)

/-! ### The table forms -/

theorem State.loadCount_eq (n : Byte) (s : State) : s.loadCount n =
    { s with
      remaining := n
      cursor := (s.cursor + 1) % 2 ^ s.cfg.addrW
      reads := s.reads ++ [s.cursor % 2 ^ s.cfg.addrW] } := rfl

/-- Settles O5: the form is `State.loadCount`, whose one read is of the byte at the cursor. -/
theorem countLoadsTheRecordCounter : Obligations.CountLoadsTheRecordCounter := by
  intro n s
  have hexec : exec (.count n) s = .next (s.loadCount n) := rfl
  rw [hexec, State.loadCount_eq]

/-- Settles O6: the body of `CMD` under R166's assumption, the argument count small enough for `argIdx`. -/
theorem cmdEmitsOneTransaction : Obligations.CmdEmitsOneTransaction := by
  intro op args s h hargs
  have hexec : exec (.cmd op args) s = .next (s.sendRecord op args) := rfl
  rw [hexec, State.sendRecord_of_live op args h]
  exact ⟨_, rfl, argIdx_toNat hargs, rfl⟩

/-- Settles O7: the body of `CMDD` under R166's assumption. -/
theorem cmddEmitsTransactionThenDelay : Obligations.CmddEmitsTransactionThenDelay := by
  intro op args ms s h hargs
  have hexec : exec (.cmdd op args ms) s = .next (s.sendRecordThenDelay op args ms) := rfl
  rw [hexec, State.sendRecordThenDelay_of_live op args ms h]
  exact ⟨_, rfl, argIdx_toNat hargs, rfl⟩

/-! ### A step of the record loop -/

/-- Steps (1) and (2) of R106 together: the two head bytes are loaded and read, the cursor is past both. -/
theorem State.fetchHead_eq (s : State) : s.fetchHead =
    { s with
      opcodeReg := s.byteAhead 0
      argSpecReg := s.byteAhead 1
      cursor := (s.cursor + 2) % 2 ^ s.cfg.addrW
      reads := s.reads ++ [s.cursor % 2 ^ s.cfg.addrW, (s.cursor + 1) % 2 ^ s.cfg.addrW] } := by
  have hcursor : addrAdd s.cfg (addrAdd s.cfg s.cursor 1) 1 = (s.cursor + 2) % 2 ^ s.cfg.addrW :=
    addrAdd_addrAdd s.cfg s.cursor 1 1
  rw [State.fetchHead, hcursor]
  rfl

/-- In the record loop a step runs the form of the record at the cursor, its head fetched, then counts it (R100, R106). -/
theorem step_of_records_exec {s : State} {t : Table} (hp : s.phase = .records t) (hr : Input.rst ∉ s.inputs)
    (hn : s.remaining ≠ 0) :
    step s = mapNext (State.andThen · State.endRecord) (exec s.recordHere.toInstr s.clearDone.fetchHead) := by
  rw [step_of_records hp hr hn, State.runRecord_eq, exec_record]
  rfl

/-- Settles O29: both forms are decoded from the bytes at the cursor, a record from all of its own
(`everyByteSequenceDecodes`). -/
theorem stepRunsTheTableFormAtTheCursor : Obligations.StepRunsTheTableFormAtTheCursor := by
  intro s t hr
  refine ⟨fun hp i hi => ?_, fun hp hn i hi => ?_⟩
  · obtain rfl : Instr.count (s.byteAhead 0) = i := Except.ok.inj hi
    have hphase : s.clearDone.phase = .header t := hp
    rw [step_of_busy (by simp [hp]) hr, State.stepBusy]
    simp only [hphase]
    rfl
  · obtain ⟨-, hdecode⟩ := everyByteSequenceDecodes s
    obtain rfl : s.recordHere.toInstr = i := Except.ok.inj (hdecode.symm.trans hi)
    rw [step_of_records_exec hp hr hn, State.fetchHead_eq]
    rfl

/-- Settles O31: one turn of the loop under R166's assumption (`State.runRecord_of_live`), the record at the cursor written
out as the bytes of the table memory; bit 7 of its second byte decides whether a delay byte follows. -/
theorem recordStepSlicesItsBytes : Obligations.RecordStepSlicesItsBytes := by
  intro s t h hr hp hn rom count
  have hl : s.clearDone.Live := h
  have hbytes : s.clearDone.byteAhead = rom := State.byteAhead_eq_rom s
  have hsize : s.clearDone.recordHere.size = 2 + count + if 128 ≤ (rom 1).toNat then 1 else 0 := by
    rw [State.recordHere, recordFrom_size, recordLength_toNat, hbytes]
  refine ⟨_, step_of_records hp hr hn, ?_⟩
  rw [State.runRecord_of_live hl, hsize, State.recordHere, recordFrom_events, recordFrom_delay_getD, hbytes]
  refine ⟨?trace, ?cursor, rfl, rfl, rfl, rfl, rfl, rfl, rfl, rfl, rfl, rfl, rfl, rfl, rfl, rfl⟩
  case trace => rw [List.append_assoc]; rfl
  case cursor => simp only [addrAdd, Nat.add_assoc]; rfl

/-! ### A Replay -/

/-- Settles O47: the state a live Replay leaves (`State.replay_of_live`), and as many records as the header byte says. -/
theorem replayRunsHeaderManyRecords : Obligations.ReplayRunsHeaderManyRecords := by
  intro s t h base rs
  have hcount : rs.length = (s.memRead (base % 2 ^ s.cfg.addrW)).toNat := recordsFrom_length _ _ _
  have hcursor : addrAdd s.cfg base (tableSize rs) = (base + 1 + (rs.map Record.size).sum) % 2 ^ s.cfg.addrW := by
    rw [addrAdd, tableSize, Nat.add_assoc]
  rw [State.replay_of_live t h]
  exact ⟨hcount, rfl, rfl, hcursor⟩

end Sys2Proof.Machine
end

section
/-! SUPPORT. The host operations one by one: what each leaves of the whole state, when every event is completed
(spec/41_host_operations.md R131 to R136). -/

namespace Sys2Proof.Machine

/-! ### `SET_WINDOW` and the toggles -/

/-- `SET_WINDOW`, when every event is completed: its events are appended, nothing else changes (R132). -/
theorem exec_setWindow_of_live {s : State} (hl : s.Live) (x y w h : U16) :
    exec (.setWindow x y w h) s = .next { s with trace := s.trace ++ s.eventsOf (.setWindow x y w h) } := by
  have h1 := State.emit_live (.txn s.cfg.opcCaset
    (windowArgs (windowStart x s.colStart) (windowEnd (windowStart x s.colStart) w))) hl
  have h2 := State.emit_live (.txn s.cfg.opcRaset
    (windowArgs (windowStart y s.rowStart) (windowEnd (windowStart y s.rowStart) h))) h1
  rw [exec_setWindow, State.afterSetWindow, State.sendWindow_of_live hl, State.emit_of_live _ h2,
    State.emit_of_live _ h1, State.emit_of_live _ hl]
  simp [State.eventsOf]

/-- The argument bytes of a placed window, the coordinates as sums modulo 65536 (R132, R137; 30_encoding.md R83). -/
theorem windowArgs_windowStart (coord size : U16) (offset : S16) :
    windowArgs (windowStart coord offset) (windowEnd (windowStart coord offset) size) =
      bytesOf16 ((coord.toNat + offset.toNat) % 65536) ++
        bytesOf16 (((coord.toNat + offset.toNat) % 65536 + size.toNat + 65535) % 65536) := by
  have hstart : (windowStart coord offset).toNat = (coord.toNat + offset.toNat) % 65536 := BitVec.toNat_add _ _
  rw [windowArgs_eq, windowEnd_toNat, hstart]

/-- Settles O11: the events of `SET_WINDOW`, its coordinates as numbers. -/
theorem setWindowEmitsThreeTransactions : Obligations.SetWindowEmitsThreeTransactions := by
  intro x y w h s hl xs ys xe ye
  have hx : windowArgs _ (windowEnd (windowStart x s.colStart) w) = bytesOf16 xs ++ bytesOf16 xe :=
    windowArgs_windowStart x w s.colStart
  have hy : windowArgs _ (windowEnd (windowStart y s.rowStart) h) = bytesOf16 ys ++ bytesOf16 ye :=
    windowArgs_windowStart y h s.rowStart
  rw [exec_setWindow_of_live hl, State.eventsOf, hx, hy]

/-- A command that is not write-RAM closes an open window (10_state.md R35). -/
theorem State.not_windowOpen_of_last {s : State} {op : Byte} (args : List Byte) (hop : op ≠ s.cfg.opcRamwr) :
    ¬ State.WindowOpen { s with trace := s.trace ++ [.txn op args] } := by
  simp [State.WindowOpen, hop]

/-- An instruction that is one command without arguments sends it, writes no register, and closes an open window unless
the command is write-RAM. -/
theorem exec_bareCommand_of_live {s : State} {i : Instr} {op : Byte} (h : s.Live) (hi : i.isEmission = true)
    (he : s.eventsOf i = [.txn op []]) :
    ∃ t, exec i s = .next t ∧ t = { s with trace := s.trace ++ [.txn op []] } ∧
      (op ≠ s.cfg.opcRamwr → ¬ t.WindowOpen) :=
  ⟨_, exec_emission_of_live h hi he, rfl, State.not_windowOpen_of_last []⟩

/-- Settles O14: `SET_DISPLAY` is one command without arguments, its opcode `displayOpcode`. -/
theorem setDisplaySendsOnOrOff : Obligations.SetDisplaySendsOnOrOff :=
  fun _ _ h => exec_bareCommand_of_live h rfl rfl

/-- Settles O15: `SET_TEARING` is one command without arguments, its opcode `tearingOpcode`. -/
theorem setTearingSendsOnOrOff : Obligations.SetTearingSendsOnOrOff :=
  fun _ _ h => exec_bareCommand_of_live h rfl rfl

/-! ### `NOP` -/

/-- Settles O10: the three codes are decoded to the three constructors (`requestsReadOnlyTheirOwnFields`). -/
theorem reservedCodesHaveNoEffect : Obligations.ReservedCodesHaveNoEffect := by
  refine ⟨fun s => ⟨rfl, rfl, rfl⟩, fun r s hop => ?_⟩
  obtain ⟨h000, -, -, -, -, -, h110, h111⟩ := requestsReadOnlyTheirOwnFields r
  obtain hop | hop | hop := hop
  · rw [h000 hop]; rfl
  · rw [h110 hop]; rfl
  · rw [h111 hop]; rfl

/-! ### `INIT` -/

/-- The records that `INIT` makes: those of the first table, then those of the second (R131). -/
def State.initRecords (s : State) : List Record := s.tableAt s.cfg.table1Base ++ s.tableAt s.cfg.table2Base

/-- The addresses that `INIT` reads: those of the first table, then those of the second (20_memory.md R58). -/
def State.initReads (s : State) : List Nat :=
  addrsFrom s.cfg s.cfg.table1Base (tableSize (s.tableAt s.cfg.table1Base)) ++
    addrsFrom s.cfg s.cfg.table2Base (tableSize (s.tableAt s.cfg.table2Base))

theorem State.afterRecords_append (s : State) (rs rs' : List Record) :
    (s.afterRecords rs).afterRecords rs' = s.afterRecords (rs ++ rs') := by
  simp [State.afterRecords, List.getLast?_append, Option.map_or, Option.getD_or]

/-- The value of an option in place of an old one: replacing it a second time changes nothing. -/
theorem getD_getD_self {α : Type} (o : Option α) (old : α) : o.getD (o.getD old) = o.getD old := by
  cases o <;> rfl

/-- The two Replays of `INIT`, when every event is completed. -/
theorem State.replays_of_live {s : State} (h : s.Live) :
    (s.replay .first).replay .second =
      { s.afterRecords s.initRecords with
        cursor := addrAdd s.cfg s.cfg.table2Base (tableSize (s.tableAt s.cfg.table2Base))
        remaining := 0
        reads := s.reads ++ s.initReads
        trace := s.trace ++ tableEvents s.initRecords } := by
  have hfirst := State.replay_of_live .first h
  have hsecond := State.replay_of_live .second (keeps_live.replay .first _ h)
  have htable : (s.replay .first).tableAt s.cfg.table2Base = s.tableAt s.cfg.table2Base :=
    State.tableAt_congr (by simp) (by simp) _
  simp only [State.replay_cfg, tableBase, htable] at hsecond
  rw [hsecond, State.initRecords, ← State.afterRecords_append]
  ext1 <;> simp [hfirst, tableBase, tableEvents, State.initReads, State.afterRecords]

theorem State.configureBus_of_live {s : State} (h : s.Live) (freq : U32) : s.configureBus freq =
    { s with
      busFreq := clockFor s.cfg freq
      trace := s.trace ++ [.cfg (clockFor s.cfg freq) s.cfg.transferMode] } :=
  State.emit_of_live (s := { s with busFreq := clockFor s.cfg freq }) _ h

theorem State.initEvents_eq (s : State) (freq : U32) : s.initEvents freq =
    [.cfg (clockFor s.cfg freq) s.cfg.transferMode] ++ tableEvents s.initRecords ++
      [.txn s.cfg.opcMadctl [s.cfg.madctlValue]] := by
  simp [State.initEvents, State.initRecords, tableEvents]

/-- `INIT`, when every event is completed: every field of the state it leaves (R131). -/
theorem State.afterInit_eq_of_live {s : State} (h : s.Live) (freq : U32) :
    s.afterInit freq =
      { s.afterRecords s.initRecords with
        busFreq := clockFor s.cfg freq
        cursor := addrAdd s.cfg s.cfg.table2Base (tableSize (s.tableAt s.cfg.table2Base))
        remaining := 0
        reads := s.reads ++ s.initReads
        trace := s.trace ++ s.initEvents freq
        xOrigin := s.colStart
        yOrigin := s.rowStart
        lifecycle := .ready } := by
  have h0 : (s.configureBus freq).Live := State.emit_live _ h
  have hrecords : (s.configureBus freq).initRecords = s.initRecords := rfl
  have hreads : (s.configureBus freq).initReads = s.initReads := rfl
  obtain ⟨heq, h2⟩ := State.afterInit_of_live h freq
  rw [heq, State.orient, State.sendCommand, State.emit_of_live _ h2, State.replays_of_live h0, hrecords, hreads,
    State.configureBus_of_live h, State.initEvents_eq, ← List.append_assoc, ← List.append_assoc]
  rfl

/-- Settles O16: the whole state that `INIT` leaves (`State.afterInit_eq_of_live`). -/
theorem initRunsBothTablesThenOrients : Obligations.InitRunsBothTablesThenOrients := by
  intro freq s h
  refine ⟨_, exec_init freq s, ?_⟩
  rw [State.afterInit_eq_of_live h, State.initReads, ← List.append_assoc]
  exact ⟨rfl, rfl, rfl, rfl, rfl, rfl, rfl, rfl, rfl, rfl, rfl, rfl, rfl, rfl, rfl, rfl⟩

/-- What `INIT` makes and reads is a function of the parameters and the table memory (20_memory.md R58). -/
theorem State.init_congr {s u : State} (hc : u.cfg = s.cfg) (hr : u.rom = s.rom) :
    u.initRecords = s.initRecords ∧ u.initReads = s.initReads ∧ ∀ freq, u.initEvents freq = s.initEvents freq := by
  have htable := State.tableAt_congr hc hr
  have hrecords : u.initRecords = s.initRecords := by
    simp only [State.initRecords, htable, hc]
  refine ⟨hrecords, ?_, fun freq => ?_⟩
  · simp only [State.initReads, htable, hc]
  · simp only [State.initEvents_eq, hrecords, hc]

/-- A second `INIT` adds its events and its reads, and finds every register as it would leave it (R139). -/
theorem State.afterInit_afterInit {s : State} (h : s.Live) (freq : U32) :
    (s.afterInit freq).afterInit freq = { s.afterInit freq with
      trace := (s.afterInit freq).trace ++ s.initEvents freq
      reads := (s.afterInit freq).reads ++ s.initReads } := by
  have ht := exec_keeps_live h (exec_init freq s)
  obtain ⟨hcfg, hrom, -, -⟩ := exec_keeps_environment (exec_init freq s)
  obtain ⟨hrecords, hreads, hevents⟩ := State.init_congr hcfg hrom
  rw [State.afterInit_eq_of_live ht, hrecords, hreads, hevents, State.tableAt_congr hcfg hrom, hcfg]
  have heq := State.afterInit_eq_of_live h freq
  ext1 <;> simp [heq, State.afterRecords, getD_getD_self]

/-- Settles O44: the events and reads of an `INIT` from any state of one device, and what a second one finds. -/
theorem secondInitRepeatsTheFirst : Obligations.SecondInitRepeatsTheFirst := by
  intro freq s s' h h' hcfg hrom
  obtain ⟨-, hreads, hevents⟩ := State.init_congr hcfg hrom
  have heq := State.afterInit_eq_of_live h freq
  have heq' := State.afterInit_eq_of_live h' freq
  rw [hreads, hevents] at heq'
  refine ⟨_, _, _, s.initEvents freq, s.initReads, exec_init freq s, exec_init freq _, exec_init freq s',
    ?_, ?_, ?_, ?_, State.afterInit_afterInit h freq⟩
  · rw [heq]
  · rw [heq']
  · rw [heq]
  · rw [heq']

/-! ### `SET_OFFSETS` -/

/-- Settles O13: the offsets are operands of the window, and `INIT` latches them and leaves them alone. -/
theorem setOffsetsIsUsedByTheNextWindow : Obligations.SetOffsetsIsUsedByTheNextWindow := by
  intro col row s window
  have hwindow {u : State} (hl : u.Live) (hc : u.cfg = s.cfg) (hcol : u.colStart = col) (hrow : u.rowStart = row)
      (x y w h : U16) : exec (.setWindow x y w h) u = .next { u with trace := u.trace ++ window x y w h } := by
    subst hcol hrow
    rw [exec_setWindow_of_live hl, State.eventsOf, hc]
    rfl
  let t : State := { s with colStart := col, rowStart := row }
  refine ⟨t, rfl, rfl, fun hl => hwindow (u := t) hl rfl rfl rfl, fun hl f => ?_⟩
  have ht : t.Live := hl
  have hx := exec_init f t
  obtain ⟨hcfg, -⟩ := exec_keeps_environment hx
  obtain ⟨hcol, hrow⟩ := exec_keeps_offsets (by simp) hx
  have heq := State.afterInit_eq_of_live ht f
  exact ⟨_, hx, by rw [heq], by rw [heq], hwindow (exec_keeps_live ht hx) hcfg hcol hrow⟩

end Sys2Proof.Machine
end

section
/-! SUPPORT. The lifecycle bit: who writes it, and that nothing depends on it (spec/41_host_operations.md R138, R140); what
every step that is no reset keeps. -/

namespace Sys2Proof.Machine

/-! ### What every step keeps -/

/-- A property of states that every update of a step keeps but the taking of an input and a reset: emissions, the working
registers, the other registers of `INIT` and `SET_OFFSETS`, the phase and the completion signal. -/
structure KeepsRun (P : State → Prop) : Prop extends Keeps P, KeepsInit P where
  offsets : ∀ c r s, P s → P { s with colStart := c, rowStart := r }
  control : ∀ p d s, P s → P { s with phase := p, rspDone := d }

section

variable {P : State → Prop} (K : KeepsRun P)
include K

theorem KeepsRun.exec {i : Instr} {s t : State} (hs : P s) (h : exec i s = .next t) : P t :=
  K.toKeeps.exec (fun _ _ => K.toKeepsInit) (fun c r _ => K.offsets c r s hs) hs h

theorem KeepsRun.completeUnlessWaiting {s : State} (hs : P s) : P s.completeUnlessWaiting :=
  keeps_andThen _ hs (K.control .idle true)

/-- A property that every update of a step keeps is kept by a step that is no reset, once the taking of a request by an
idle block is seen to. -/
theorem KeepsRun.step {s t : State} (hr : ¬ s.takesReset)
    (haccept : ∀ r rest, s.phase = .idle → s.inputs = .request r :: rest → P (s.clearDone.accept rest)) (hs : P s)
    (h : step s = .next t) : P t := by
  have hclear : P s.clearDone := K.control s.phase false s hs
  cases step_answer h with
  | rest | hang => exact hclear
  | reset htakes => exact absurd htakes hr
  | request r rest u hp hin hx => exact K.completeUnlessWaiting (K.exec (haccept r rest hp hin) hx)
  | header tb => exact keeps_andThen _ (K.loadCount _ _ hclear) fun u => K.control (.records tb) u.rspDone u
  | leaveTable tb =>
    cases tb with
    | first =>
      have htable : P (s.clearDone.enterTable .second) :=
        K.working _ _ s.remaining s.opcodeReg s.argSpecReg s.argIdx s.delayReg s.reads hclear
      exact K.control (.header .second) false _ htable
    | second => exact K.control .orientation false _ hclear
  | record => exact K.runRecord _ hclear
  | orientation => exact K.completeUnlessWaiting (keeps_andThen _ (K.emit _ _ hclear) K.becomeReady)
  | send i rest u hp hx =>
    refine keeps_andThen _ (K.exec hclear hx) fun v hv => ?_
    cases rest with
    | nil => exact K.control .idle true v hv
    | cons j rest => exact K.control (.sending (j :: rest)) v.rspDone v hv
  | finish => exact K.control .idle true _ hclear

end

theorem mapNext_of_next {f : State → State} {o : Host.Outcome State Fault Refusal} (h : ∃ u, o = .next u) :
    ∃ t, mapNext f o = .next t := by
  obtain ⟨u, rfl⟩ := h
  exact ⟨f u, rfl⟩

theorem stepBusy_next (s : State) : ∃ t, s.stepBusy = .next t := by
  unfold State.stepBusy
  split
  next t => exact mapNext_of_next (exec_next _ _)
  next t =>
    unfold State.stepRecords
    split
    · exact ⟨_, rfl⟩
    · exact mapNext_of_next (exec_next _ _)
  next => exact mapNext_of_next (exec_next _ _)
  next i rest => exact mapNext_of_next (exec_next _ _)
  all_goals exact ⟨_, rfl⟩

/-- Nothing raises and nothing refuses a step (60_exceptions.md R180). -/
theorem step_next (s : State) : ∃ t, step s = .next t := by
  by_cases hp : s.phase = .idle
  · rw [step_of_idle hp]
    unfold State.stepIdle
    split
    next => exact ⟨_, rfl⟩
    next rest _ => exact ⟨_, rfl⟩
    next r rest _ => exact mapNext_of_next (exec_next _ _)
  · by_cases hr : Input.rst ∈ s.inputs
    · exact ⟨_, step_of_busy_rst hp hr⟩
    · rw [step_of_busy hp hr]
      exact stepBusy_next _

theorem keepsRun_inputs (ins : List Input) : KeepsRun fun u => u.inputs = ins where
  emit _ _ h := h
  working _ _ _ _ _ _ _ _ h := h
  busFreq _ _ h := h
  becomeReady _ h := h
  offsets _ _ _ h := h
  control _ _ _ h := h

/-- Settles O33: no update of a step takes an input but the acceptance of a request by an idle block. -/
theorem busyBlockAcceptsNoRequest : Obligations.BusyBlockAcceptsNoRequest := by
  intro s hp hr
  obtain ⟨t, ht⟩ := step_next s
  have hreset : ¬ s.takesReset := by simp [State.takesReset, hp, hr]
  exact ⟨t, ht, (keepsRun_inputs s.inputs).step hreset (fun _ _ hidle => absurd hidle hp) rfl ht⟩

/-! ### Who writes the lifecycle -/

theorem keepsRun_ready : KeepsRun fun u => u.lifecycle = .ready where
  emit _ _ h := h
  working _ _ _ _ _ _ _ _ h := h
  busFreq _ _ h := h
  becomeReady _ _ := rfl
  offsets _ _ _ h := h
  control _ _ _ h := h

/-- An instruction leaves the lifecycle as it is or makes it `Ready` (R138). -/
theorem exec_lifecycle {i : Instr} {s t : State} (h : exec i s = .next t) :
    t.lifecycle = s.lifecycle ∨ t.lifecycle = .ready :=
  have K : Keeps fun u => u.lifecycle = s.lifecycle ∨ u.lifecycle = .ready :=
    ⟨fun _ _ h => h, fun _ _ _ _ _ _ _ _ h => h⟩
  K.exec (fun _ _ => ⟨fun _ _ h => h, fun _ _ => .inr rfl⟩) (fun _ _ _ => .inl rfl) (.inl rfl) h

/-- The step that takes a reset (70_reset_and_hazards.md R200, 60_exceptions.md R185). -/
theorem step_of_takesReset {s : State} (h : s.takesReset) :
    ∃ rest, step s = .next (s.clearDone.afterReset rest) := by
  obtain ⟨hp, hin⟩ | ⟨hp, hin⟩ := h
  · obtain ⟨rest, hrest⟩ := List.head?_eq_some_iff.mp hin
    refine ⟨rest, ?_⟩
    rw [step_of_idle hp, State.stepIdle]
    simp only [State.clearDone_inputs, hrest]
  · exact ⟨_, step_of_busy_rst hp hin⟩

/-- Settles O41: no update but a reset takes `Ready` back, and a reset does. -/
theorem readyIsLeftOnlyByReset : Obligations.ReadyIsLeftOnlyByReset := by
  refine ⟨fun i s t h hne => ?only, fun f s hl => ?init, fun s t h hready => ⟨fun ht hr => ?reset, fun hr => ?kept⟩⟩
  case only =>
    refine ⟨by_contra fun hinit => hne ?_, (exec_lifecycle h).resolve_left hne⟩
    obtain ⟨-, -, -, hsame⟩ := exec_keeps_latched (fun f hi => hinit ⟨f, hi⟩) h
    exact hsame
  case init => exact ⟨_, exec_init f s, by rw [State.afterInit_eq_of_live hl]⟩
  case reset =>
    obtain ⟨rest, hstep⟩ := step_of_takesReset hr
    cases hstep.symm.trans h
    cases ht
  case kept => exact keepsRun_ready.step hr (fun _ _ _ _ => hready) hready h

/-! ### Nothing depends on the lifecycle -/

/-- `s` with another lifecycle bit. -/
def State.withLifecycle (l : Lifecycle) (s : State) : State := { s with lifecycle := l }

section

variable (l : Lifecycle)

theorem State.withLifecycle_andThen {f : State → State} (hf : ∀ u, f (u.withLifecycle l) = (f u).withLifecycle l)
    (s : State) : (s.withLifecycle l).andThen f = (s.andThen f).withLifecycle l := by
  have hphase : (s.withLifecycle l).phase = s.phase := rfl
  rw [State.andThen, State.andThen, hphase, hf, apply_ite (State.withLifecycle l)]

theorem State.withLifecycle_sendRecord (op : Byte) (args : List Byte) (s : State) :
    (s.withLifecycle l).sendRecord op args = (s.sendRecord op args).withLifecycle l :=
  State.withLifecycle_andThen l (f := State.advance args.length) (fun _ => rfl)
    (State.sendCommand op args { s.readAhead args.length with argIdx := BitVec.ofNat 7 args.length })

theorem State.withLifecycle_sendRecordThenDelay (op : Byte) (args : List Byte) (ms : Byte) (s : State) :
    (s.withLifecycle l).sendRecordThenDelay op args ms = (s.sendRecordThenDelay op args ms).withLifecycle l := by
  rw [State.sendRecordThenDelay, State.withLifecycle_sendRecord]
  exact State.withLifecycle_andThen l (f := State.honourDelay ms) (fun _ => rfl) _

theorem State.withLifecycle_runForm (r : Record) (s : State) :
    (s.withLifecycle l).runForm r = (s.runForm r).withLifecycle l := by
  unfold State.runForm
  split
  · exact State.withLifecycle_sendRecord l _ _ s
  · exact State.withLifecycle_sendRecordThenDelay l _ _ _ s

theorem State.withLifecycle_runRecord (s : State) :
    (s.withLifecycle l).runRecord = s.runRecord.withLifecycle l := by
  have hform : (s.withLifecycle l).fetchHead.runForm (s.withLifecycle l).recordHere =
      (s.fetchHead.runForm s.recordHere).withLifecycle l := State.withLifecycle_runForm l s.recordHere s.fetchHead
  rw [State.runRecord_eq, State.runRecord_eq, hform]
  exact State.withLifecycle_andThen l (f := State.endRecord) (fun _ => rfl) _

theorem State.withLifecycle_runRecords : ∀ (n : Nat) (s : State),
    (s.withLifecycle l).runRecords n = (s.runRecords n).withLifecycle l
  | 0, _ => rfl
  | n + 1, s => by
    rw [State.runRecords, State.withLifecycle_runRecord]
    exact State.withLifecycle_andThen l (State.withLifecycle_runRecords n) _

theorem State.withLifecycle_replay (t : Table) (s : State) :
    (s.withLifecycle l).replay t = (s.replay t).withLifecycle l :=
  State.withLifecycle_runRecords l _ (s.startReplay t)

/-- Two runs of `INIT` that began with different lifecycles end alike but for it. -/
theorem State.withLifecycle_afterInit (freq : U32) (s : State) :
    ((s.withLifecycle l).afterInit freq).withLifecycle l = (s.afterInit freq).withLifecycle l := by
  have hbus : (s.withLifecycle l).configureBus freq = (s.configureBus freq).withLifecycle l := rfl
  rw [State.afterInit, State.afterInit, hbus, State.withLifecycle_andThen l (State.withLifecycle_replay l .first),
    State.withLifecycle_andThen l (State.withLifecycle_replay l .second),
    State.withLifecycle_andThen l (f := State.orient) fun _ => rfl]
  exact State.andThen_congr (E := State.withLifecycle l) (fun _ => rfl) rfl rfl

theorem State.withLifecycle_sendWindow (xs xe ys ye : U16) (s : State) :
    (s.withLifecycle l).sendWindow xs xe ys ye = (s.sendWindow xs xe ys ye).withLifecycle l := by
  have h1 := State.withLifecycle_andThen l (f := State.sendCommand s.cfg.opcRaset (windowArgs ys ye)) (fun _ => rfl)
    (s.sendCommand s.cfg.opcCaset (windowArgs xs xe))
  have h2 := State.withLifecycle_andThen l (f := State.sendCommand s.cfg.opcRamwr []) (fun _ => rfl)
    ((s.sendCommand s.cfg.opcCaset (windowArgs xs xe)).andThen
      (State.sendCommand s.cfg.opcRaset (windowArgs ys ye)))
  exact (congrArg (State.andThen · (State.sendCommand s.cfg.opcRamwr [])) h1).trans h2

theorem State.withLifecycle_afterSetWindow (x y w h : U16) (s : State) :
    (s.withLifecycle l).afterSetWindow x y w h = (s.afterSetWindow x y w h).withLifecycle l :=
  State.withLifecycle_sendWindow l _ _ _ _ s

/-- The lifecycle does not shape an event. -/
theorem State.eventsOf_withLifecycle (s : State) {i : Instr} (hi : i.isEmission = true) :
    (s.withLifecycle l).eventsOf i = s.eventsOf i := by
  cases i <;> cases hi <;> rfl

/-- Every instruction does the same under either lifecycle (R140). -/
theorem exec_withLifecycle {i : Instr} {s t u : State} (hx : exec i s = .next t)
    (hu : exec i (s.withLifecycle l) = .next u) : u.withLifecycle l = t.withLifecycle l := by
  cases exec_answer hx with
  | count n => cases hu; rfl
  | cmd op args => cases hu; rw [State.withLifecycle_sendRecord]; rfl
  | cmdd op args ms => cases hu; rw [State.withLifecycle_sendRecordThenDelay]; rfl
  | init freq => cases hu; exact State.withLifecycle_afterInit l freq s
  | setWindow x y w h =>
    cases (exec_setWindow x y w h _).symm.trans hu
    rw [State.withLifecycle_afterSetWindow]
    rfl
  | setOffsets c r => cases hu; rfl
  | nop _ hnop => obtain rfl | rfl | rfl := hnop <;> cases hu <;> rfl
  | emission _ e hem he =>
    have hemit := exec_emission hem ((State.eventsOf_withLifecycle l s hem).trans he)
    cases hemit.symm.trans hu
    rfl

end

/-- Settles O42: every part of every instruction commutes with changing the bit, but for the end of `INIT`, which
overwrites it. -/
theorem lifecycleGatesNothing : Obligations.LifecycleGatesNothing := fun _ _ l _ _ => exec_withLifecycle l

end Sys2Proof.Machine
end

section
/-! SUPPORT. The step that takes a request, and a session of them (spec/41_host_operations.md R130, R142). -/

namespace Sys2Proof.Machine

/-! ### One request -/

theorem step_of_request {s : State} {r : Request} {rest : List Input} (hp : s.phase = .idle)
    (hin : s.inputs = .request r :: rest) :
    step s = mapNext State.completeUnlessWaiting (exec (decodeRequest r) (s.clearDone.accept rest)) := by
  rw [step_of_idle hp, State.stepIdle]
  simp only [State.clearDone_inputs, hin]

/-- Settles O28: the step runs `exec` of the decoded request, then `State.completeUnlessWaiting`. -/
theorem stepRunsTheRequestedOperation : Obligations.StepRunsTheRequestedOperation := by
  intro s r rest hp hin i hi
  obtain rfl : decodeRequest r = i := Except.ok.inj hi
  obtain ⟨t, hx⟩ := exec_next (decodeRequest r) (s.clearDone.accept rest)
  refine ⟨t, hx, ?_⟩
  rw [step_of_request hp hin, hx]
  rfl

/-! ### What shapes the events of the next operation -/

/-- The fields that shape the events of an operation are those of `s`: the parameters, the table memory and the offsets. -/
structure State.SameOperands (s u : State) : Prop where
  cfg : u.cfg = s.cfg
  rom : u.rom = s.rom
  colStart : u.colStart = s.colStart
  rowStart : u.rowStart = s.rowStart

theorem State.SameOperands.trans {s u v : State} (h : s.SameOperands u) (h' : u.SameOperands v) : s.SameOperands v :=
  ⟨h'.cfg.trans h.cfg, h'.rom.trans h.rom, h'.colStart.trans h.colStart, h'.rowStart.trans h.rowStart⟩

theorem State.SameOperands.eventsOf {s u : State} (h : s.SameOperands u) (i : Instr) : u.eventsOf i = s.eventsOf i := by
  obtain ⟨hcfg, hrom, hcol, hrow⟩ := h
  obtain ⟨-, -, hinit⟩ := State.init_congr hcfg hrom
  cases i <;> simp only [State.eventsOf, hcfg, hcol, hrow, hinit]

theorem State.SameOperands.afterOffsets {s u : State} (h : s.SameOperands u) (i : Instr) :
    (s.afterOffsets i).SameOperands (u.afterOffsets i) := by
  cases i with
  | setOffsets c r => exact ⟨h.cfg, h.rom, rfl, rfl⟩
  | _ => exact h

theorem State.SameOperands.sessionEvents : ∀ (is : List Instr) {s u : State}, s.SameOperands u →
    u.sessionEvents is = s.sessionEvents is
  | [], _, _, _ => rfl
  | i :: is, _, _, h => by
    rw [State.sessionEvents, State.sessionEvents, h.eventsOf, State.SameOperands.sessionEvents is (h.afterOffsets i)]

/-- An instruction leaves what shapes later events as `State.afterOffsets` has it (R132, R133, R139). -/
theorem exec_sameOperands {i : Instr} {s t : State} (h : exec i s = .next t) : (s.afterOffsets i).SameOperands t := by
  obtain ⟨hcfg, hrom, -, -⟩ := exec_keeps_environment h
  by_cases hi : ∃ c r, i = .setOffsets c r
  · obtain ⟨c, r, rfl⟩ := hi
    cases h
    exact ⟨rfl, rfl, rfl, rfl⟩
  · have hne : ∀ c r, i ≠ .setOffsets c r := fun c r he => hi ⟨c, r, he⟩
    obtain ⟨hcol, hrow⟩ := exec_keeps_offsets hne h
    have hsame : s.afterOffsets i = s := by
      unfold State.afterOffsets
      split
      next c r => exact absurd rfl (hne c r)
      next => rfl
    rw [hsame]
    exact ⟨hcfg, hrom, hcol, hrow⟩

/-! ### A session of requests -/

/-- A request to a live idle block: one step runs the decoded operation to its end and leaves the block live, idle and
with the rest of the inputs. -/
theorem step_of_request_of_live {s : State} {r : Request} {rest : List Input} (hl : s.Live) (hp : s.phase = .idle)
    (hin : s.inputs = .request r :: rest) :
    ∃ u, step s = .next u ∧ u.Live ∧ u.phase = .idle ∧ u.inputs = rest ∧
      u.trace = s.trace ++ s.eventsOf (decodeRequest r) ∧ (s.afterOffsets (decodeRequest r)).SameOperands u := by
  have haccept : (s.clearDone.accept rest).Live := ⟨hl.1, by simp⟩
  have hsame : s.SameOperands (s.clearDone.accept rest) := ⟨rfl, rfl, rfl, rfl⟩
  obtain ⟨t, hx⟩ := exec_next (decodeRequest r) (s.clearDone.accept rest)
  have ht := exec_keeps_live haccept hx
  have htrace : t.trace = s.trace ++ s.eventsOf (decodeRequest r) := by
    rw [exec_trace_of_live haccept hx, hsame.eventsOf]
    rfl
  obtain ⟨-, -, hinputs, -⟩ := exec_keeps_environment hx
  obtain ⟨hcfg, hrom, hcol, hrow⟩ := (hsame.afterOffsets (decodeRequest r)).trans (exec_sameOperands hx)
  refine ⟨t.complete, ?_, ⟨ht.1, by simp⟩, rfl, hinputs, htrace, ⟨hcfg, hrom, hcol, hrow⟩⟩
  rw [step_of_request hp hin, hx]
  exact congrArg _ (State.andThen_of_live _ ht)

/-- Settles O53, by induction on the requests: the state a request leaves has the offsets the next ones are placed by. -/
theorem requestsRunInOrderOneAStep : Obligations.RequestsRunInOrderOneAStep := by
  intro rs
  induction rs with
  | nil =>
    intro s rest _ hp hin
    exact ⟨s, rfl, hp, hin, by simp [State.sessionEvents]⟩
  | cons r rs ih =>
    intro s rest hl hp hin
    obtain ⟨u, hstep, hul, hup, huin, hutrace, hops⟩ := step_of_request_of_live hl hp hin
    obtain ⟨t, hrun, htp, htin, httrace⟩ := ih u rest hul hup huin
    refine ⟨t, (run_succ_of_step hstep rs.length).trans hrun, htp, htin, ?_⟩
    rw [httrace, hutrace, hops.sessionEvents, List.append_assoc]
    rfl

end Sys2Proof.Machine
end

section
/-! SUPPORT. The dispatcher's primitives: one event each, and the beats and signals of an event on the transport channel
(spec/42_dispatcher_primitives.md R160 to R164, R167). -/

namespace Sys2Proof.Machine

/-- Settles O18: each is one emission. -/
theorem primitivesAreOneEventEach : Obligations.PrimitivesAreOneEventEach := by
  intro s h
  refine ⟨fun op args => ?_, fun op => ?_, fun ms => ?_, fun f mode => ?_⟩
  all_goals exact exec_emission_of_live h rfl rfl

/-- Settles O19: one emission, its bytes those of `be32_eq`. -/
theorem write32IsBigEndianUnderOneCommand : Obligations.Write32IsBigEndianUnderOneCommand := by
  intro op v s h
  rw [← be32_eq]
  exact exec_emission_of_live h rfl rfl

/-- Whichever call form a transaction is read as, its event is the transaction (30_encoding.md R85). -/
theorem Event.ofPrimitive_sendForm (op : Byte) (args : List Byte) :
    Event.ofPrimitive (sendForm op args) = some (.txn op args) := by
  unfold sendForm
  split
  next => rfl
  next a b c d => rw [Event.ofPrimitive, be32_append]
  next => rfl

/-- Settles O27, by the kind of event: only a transaction has more than one beat and more than one call form. -/
theorem beatsCarryExactlyTheirEvent : Obligations.BeatsCarryExactlyTheirEvent := by
  intro p e hok
  cases e with
  | cfg f mode => exact ⟨.configure f mode, rfl, rfl⟩
  | txn op args => exact ⟨sendForm op args, decodeBeats_txnBeats op args hok, Event.ofPrimitive_sendForm op args⟩
  | delay ms => exact ⟨.delay ms, rfl, rfl⟩

/-- The low byte of `tx_data`, whatever the free bits above it (log entry 17). -/
theorem lowByte_append (high : BitVec 24) (low : Byte) : (high ++ low).toNat % 256 = low.toNat := by
  have := low.isLt
  rw [append_toNat]
  omega

/-- Settles O54: the upper bits of `tx_data` are joined on top of the byte, and 127 argument bytes fit `tx_len`. -/
theorem beatSignalsOfEachKind : Obligations.BeatSignalsOfEachKind :=
  ⟨fun _ _ _ => ⟨rfl, rfl, rfl⟩, fun _ op _ => ⟨rfl, lowByte_append _ op, rfl⟩, fun _ b => ⟨rfl, lowByte_append _ b⟩,
    fun _ ms => ⟨rfl, lowByte_append _ ms⟩, fun _ _ => rfl, fun _ => rfl,
    fun _ _ hlen => ⟨_, argIdx_toNat hlen, rfl⟩⟩

end Sys2Proof.Machine
end

section
/-! SUPPORT. Collaborators that complete only so many events (spec/42_dispatcher_primitives.md R166): a waiting block goes on
waiting, and an operation is its completed run, cut after the event that is not completed. -/

namespace Sys2Proof.Machine

/-! ### A waiting block -/

theorem step_of_waiting {s : State} (hp : s.phase = .waiting) (hr : Input.rst ∉ s.inputs) :
    step s = .next s.clearDone := by
  have hp' : s.clearDone.phase = .waiting := hp
  rw [step_of_busy (by simp [hp]) hr, State.stepBusy]
  simp only [hp']

/-- Settles O34, by induction on the number of steps: the state after one step is again a waiting one. -/
theorem waitingBlockStaysBusyForEver : Obligations.WaitingBlockStaysBusyForEver := by
  intro s k
  induction k generalizing s with
  | zero => exact fun hp hr => run_succ_of_step (step_of_waiting hp hr) 0
  | succ k ih => exact fun hp hr => (run_succ_of_step (step_of_waiting hp hr) (k + 1)).trans (ih s.clearDone hp hr)

/-! ### A run with a limit on the events -/

/-- `s`, with collaborators that complete events until the trace holds `n` of them. -/
def State.allow (n : Nat) (s : State) : State := { s with willComplete := some (n - s.trace.length) }

/-- `t` is the run `u`, in which every event is completed, under collaborators that complete events until the trace holds
`n` of them: the same state if `u` has no more, and otherwise a wait for event `n + 1`. -/
inductive State.CutAt (n : Nat) (u t : State) : Prop where
  | completes (hn : u.trace.length ≤ n) (ht : t = u.allow n)
  | hangs (hn : n < u.trace.length) (hp : t.phase = .waiting) (hw : t.willComplete = some 0)
      (htr : t.trace = u.trace.take (n + 1))

/-- An operation that only appends to the trace and that, under a limit on the events, does what it does without one, cut
at the limit. -/
def Limited (f : State → State) : Prop :=
  ∀ (n : Nat) (s : State), s.Live → s.trace.length ≤ n →
    (f s).Live ∧ s.trace <+: (f s).trace ∧ State.CutAt n (f s) (f (s.allow n))

/-- An operation that emits nothing and for which completions make no difference. -/
structure Silent (f : State → State) : Prop where
  allow : ∀ n s, f (s.allow n) = (f s).allow n
  trace : ∀ s, (f s).trace = s.trace
  live : ∀ s, s.Live → (f s).Live

theorem Silent.limited {f : State → State} (hf : Silent f) : Limited f := by
  intro n s hl hn
  have htrace := hf.trace s
  exact ⟨hf.live s hl, by rw [htrace], .completes (by rwa [htrace]) (hf.allow n s)⟩

theorem Limited.after_silent {f g : State → State} (hg : Limited g) (hf : Silent f) : Limited fun s => g (f s) := by
  intro n s hl hn
  have hrun := hg n (f s) (hf.live s hl) (by rwa [hf.trace])
  rwa [hf.trace, ← hf.allow] at hrun

/-- An operand taken from the state is the same whatever the limit. -/
theorem Limited.of_operand {α : Type} {a : State → α} {f : α → State → State} (ha : ∀ n s, a (s.allow n) = a s)
    (hf : ∀ x, Limited (f x)) : Limited fun s => f (a s) s := by
  intro n s hl hn
  obtain ⟨hfl, hfp, hcut⟩ := hf (a s) n s hl hn
  refine ⟨hfl, hfp, ?_⟩
  simpa only [ha] using hcut

/-- The one event at the limit is handed over and not completed; one below it is completed. -/
theorem Limited.emit (e : Event) : Limited (State.emit e) := by
  intro n s hl hn
  refine ⟨State.emit_live e hl, List.prefix_append _ _, ?_⟩
  obtain hlt | rfl := hn.lt_or_eq
  · have hleft : n - s.trace.length ≠ 0 := by omega
    refine .completes (by simp; omega) ?_
    rw [State.emit_of_live e hl]
    simp [State.emit, State.allow, hleft, Nat.sub_sub]
  · exact .hangs (by simp) (by simp [State.allow]) (by simp [State.allow]) (by simp [State.allow])

/-- The next statement runs under what is left of the limit, and not at all once the one before it waits. -/
theorem Limited.andThen {f g : State → State} (hf : Limited f) (hg : Limited g) : Limited fun s => (f s).andThen g := by
  intro n s hl hn
  obtain ⟨hfl, hfp, hcut⟩ := hf n s hl hn
  simp only [State.andThen_of_live g hfl]
  cases hcut with
  | completes hle ht =>
    obtain ⟨hgl, hgp, hgcut⟩ := hg n (f s) hfl hle
    have hrun : (f (s.allow n)).andThen g = g ((f s).allow n) := by
      rw [ht]
      exact if_neg hfl.2
    exact ⟨hgl, hfp.trans hgp, hrun ▸ hgcut⟩
  | hangs hlt hp hw htr =>
    obtain ⟨hgl, hgp, -⟩ := hg _ (f s) hfl le_rfl
    refine ⟨hgl, hfp.trans hgp, ?_⟩
    rw [State.andThen_of_waiting g hp]
    obtain ⟨es, hes⟩ := hgp
    exact .hangs (by simp [← hes]; omega) hp hw (by rw [htr, ← hes, List.take_append_of_le_length hlt])

/-! ### The operations under a limit -/

theorem silent_advance (k : Nat) : Silent (State.advance k) := ⟨fun _ _ => rfl, fun _ => rfl, fun _ h => h⟩
theorem silent_loadCount (n : Byte) : Silent (State.loadCount n) := ⟨fun _ _ => rfl, fun _ => rfl, fun _ h => h⟩
theorem silent_fetchHead : Silent State.fetchHead := ⟨fun _ _ => rfl, fun _ => rfl, fun _ h => h⟩
theorem silent_endRecord : Silent State.endRecord := ⟨fun _ _ => rfl, fun _ => rfl, fun _ h => h⟩
theorem silent_startReplay (t : Table) : Silent (State.startReplay t) := ⟨fun _ _ => rfl, fun _ => rfl, fun _ h => h⟩
theorem silent_becomeReady : Silent State.becomeReady := ⟨fun _ _ => rfl, fun _ => rfl, fun _ h => h⟩
theorem silent_setOffsets (c r : S16) : Silent fun s => { s with colStart := c, rowStart := r } :=
  ⟨fun _ _ => rfl, fun _ => rfl, fun _ h => h⟩
theorem silent_id : Silent id := ⟨fun _ _ => rfl, fun _ => rfl, fun _ h => h⟩

theorem limited_sendRecord (op : Byte) (args : List Byte) : Limited (State.sendRecord op args) :=
  have hread : Silent fun s => { s.readAhead args.length with argIdx := BitVec.ofNat 7 args.length } :=
    ⟨fun _ _ => rfl, fun _ => rfl, fun _ h => h⟩
  ((Limited.emit (.txn op args)).after_silent hread).andThen (silent_advance _).limited

theorem limited_honourDelay (ms : Byte) : Limited (State.honourDelay ms) :=
  have hread : Silent fun s => { (s.readAhead 1).advance 1 with delayReg := ms } :=
    ⟨fun _ _ => rfl, fun _ => rfl, fun _ h => h⟩
  (Limited.emit (.delay ms)).after_silent hread

theorem limited_sendRecordThenDelay (op : Byte) (args : List Byte) (ms : Byte) :
    Limited (State.sendRecordThenDelay op args ms) :=
  (limited_sendRecord op args).andThen (limited_honourDelay ms)

theorem limited_runForm : ∀ r : Record, Limited (State.runForm r)
  | ⟨op, args, none⟩ => limited_sendRecord op args
  | ⟨op, args, some ms⟩ => limited_sendRecordThenDelay op args ms

theorem limited_runRecord : Limited State.runRecord := by
  have hform : Limited fun s => s.fetchHead.runForm s.recordHere :=
    Limited.of_operand (f := fun r s => s.fetchHead.runForm r) (fun _ _ => rfl)
      fun r => (limited_runForm r).after_silent silent_fetchHead
  have hturn := hform.andThen silent_endRecord.limited
  simp only [← State.runRecord_eq] at hturn
  exact hturn

theorem limited_runRecords : ∀ n : Nat, Limited (State.runRecords n)
  | 0 => silent_id.limited
  | n + 1 => limited_runRecord.andThen (limited_runRecords n)

theorem limited_replay (t : Table) : Limited (State.replay t) :=
  have hloop : Limited State.recordLoop :=
    Limited.of_operand (a := fun s => s.remaining.toNat) (fun _ _ => rfl) limited_runRecords
  hloop.after_silent (silent_startReplay t)

theorem limited_configureBus (freq : U32) : Limited (State.configureBus freq) :=
  have hclock (f : U32) : Silent fun s => { s with busFreq := f } := ⟨fun _ _ => rfl, fun _ => rfl, fun _ h => h⟩
  Limited.of_operand (a := State.cfg)
    (f := fun p s => State.emit (.cfg (clockFor p freq) p.transferMode) { s with busFreq := clockFor p freq })
    (fun _ _ => rfl) fun _ => (Limited.emit _).after_silent (hclock _)

theorem limited_orient : Limited State.orient :=
  Limited.of_operand (a := State.cfg) (f := fun p => State.sendCommand p.opcMadctl [p.madctlValue]) (fun _ _ => rfl)
    fun _ => Limited.emit _

theorem limited_afterInit (freq : U32) : Limited (State.afterInit freq) :=
  ((((limited_configureBus freq).andThen (limited_replay .first)).andThen (limited_replay .second)).andThen
    limited_orient).andThen silent_becomeReady.limited

theorem limited_sendWindow (xs xe ys ye : U16) : Limited (State.sendWindow xs xe ys ye) :=
  Limited.of_operand (a := State.cfg)
    (f := fun p s => ((s.sendCommand p.opcCaset (windowArgs xs xe)).andThen
      (State.sendCommand p.opcRaset (windowArgs ys ye))).andThen (State.sendCommand p.opcRamwr []))
    (fun _ _ => rfl) fun _ => ((Limited.emit _).andThen (Limited.emit _)).andThen (Limited.emit _)

theorem limited_afterSetWindow (x y w h : U16) : Limited (State.afterSetWindow x y w h) :=
  fun n s => limited_sendWindow _ _ _ _ n s

/-- Every instruction under a limit is its completed run, cut at the limit. -/
theorem exec_cutAt {i : Instr} {n : Nat} {s t u : State} (hl : s.Live) (hn : s.trace.length ≤ n)
    (hu : exec i s = .next u) (ht : exec i (s.allow n) = .next t) : State.CutAt n u t := by
  have cut {f : State → State} (hf : Limited f) : State.CutAt n (f s) (f (s.allow n)) := (hf n s hl hn).2.2
  cases exec_answer hu with
  | count k => cases ht; exact cut (silent_loadCount k).limited
  | cmd op args => cases ht; exact cut (limited_sendRecord op args)
  | cmdd op args ms => cases ht; exact cut (limited_sendRecordThenDelay op args ms)
  | init freq => cases ht; exact cut (limited_afterInit freq)
  | setWindow x y w h =>
    cases (exec_setWindow x y w h _).symm.trans ht
    exact cut (limited_afterSetWindow x y w h)
  | setOffsets c r => cases ht; exact cut (silent_setOffsets c r).limited
  | nop _ hnop => obtain rfl | rfl | rfl := hnop <;> cases ht <;> exact cut silent_id.limited
  | emission _ e hi he =>
    have hsame : s.SameOperands (s.allow n) := ⟨rfl, rfl, rfl, rfl⟩
    cases (exec_emission hi ((hsame.eventsOf i).trans he)).symm.trans ht
    exact cut (Limited.emit e)

/-! ### What an operation that hangs has left -/

theorem State.andThen_eq_self_of_waiting {s : State} {f : State → State} (hf : ∀ u, (f u).phase = u.phase)
    (hp : (s.andThen f).phase = .waiting) : s.andThen f = s := by
  obtain ⟨-, heq⟩ | ⟨hw, heq⟩ := State.andThen_cases s f
  · exact heq
  · rw [heq, hf] at hp
    exact absurd hp hw

/-- An `INIT` that hangs has set the clock, and has latched nothing (41_host_operations.md R131). -/
theorem State.afterInit_latched_of_waiting {freq : U32} {s : State} (hp : (s.afterInit freq).phase = .waiting) :
    (s.afterInit freq).xOrigin = s.xOrigin ∧ (s.afterInit freq).yOrigin = s.yOrigin ∧
      (s.afterInit freq).busFreq = clockFor s.cfg freq ∧ (s.afterInit freq).lifecycle = s.lifecycle := by
  have K := keeps_latched s.xOrigin s.yOrigin (clockFor s.cfg freq) s.lifecycle
  have h0 := K.emit (.cfg (clockFor s.cfg freq) s.cfg.transferMode) { s with busFreq := clockFor s.cfg freq }
    ⟨rfl, rfl, rfl, rfl⟩
  have h1 := keeps_andThen _ h0 (K.replay .first)
  have h2 := keeps_andThen _ h1 (K.replay .second)
  have h3 := keeps_andThen State.orient h2 fun u => K.emit (.txn u.cfg.opcMadctl [u.cfg.madctlValue]) u
  rw [State.afterInit, State.andThen_eq_self_of_waiting (f := State.becomeReady) (fun _ => rfl) hp]
  exact h3

/-- An instruction that hangs has latched nothing, and has written the clock only if it is `INIT`. -/
theorem exec_latched_of_waiting {i : Instr} {s t : State} (hx : exec i s = .next t) (hp : t.phase = .waiting) :
    t.xOrigin = s.xOrigin ∧ t.yOrigin = s.yOrigin ∧ t.lifecycle = s.lifecycle ∧
      (∀ freq, i = .init freq → t.busFreq = clockFor s.cfg freq) ∧
      ((∀ freq, i ≠ .init freq) → t.busFreq = s.busFreq) := by
  by_cases hi : ∃ freq, i = .init freq
  · obtain ⟨freq, rfl⟩ := hi
    cases (exec_init freq s).symm.trans hx
    obtain ⟨hxo, hyo, hclock, hlife⟩ := State.afterInit_latched_of_waiting hp
    exact ⟨hxo, hyo, hlife, fun _ he => by cases he; exact hclock, fun hne => absurd rfl (hne freq)⟩
  · have hne : ∀ freq, i ≠ .init freq := fun freq he => hi ⟨freq, he⟩
    obtain ⟨hxo, hyo, hclock, hlife⟩ := exec_keeps_latched hne hx
    exact ⟨hxo, hyo, hlife, fun freq he => absurd he (hne freq), fun _ => hclock⟩

/-- `SET_OFFSETS` emits nothing, so it does not begin a wait. -/
theorem exec_keeps_offsets_of_waiting {i : Instr} {s t : State} (hs : s.phase ≠ .waiting) (hx : exec i s = .next t)
    (hp : t.phase = .waiting) : t.colStart = s.colStart ∧ t.rowStart = s.rowStart := by
  refine exec_keeps_offsets (fun c r he => hs ?_) hx
  subst he
  cases hx
  exact hp

/-- Settles O37: the run with `k` completions is the completed run cut at `k` more events (`exec_cutAt`), and what a hung
one leaves unchanged is said by the frames. -/
theorem hungOperationEmitsAPrefix : Obligations.HungOperationEmitsAPrefix := by
  intro i s k hs hk
  have hlive : State.Live { s with willComplete := none } := ⟨rfl, hs⟩
  have hallow : s = State.allow (s.trace.length + k) { s with willComplete := none } := by
    rw [State.allow, Nat.add_sub_cancel_left, ← hk]
  have hsame : s.SameOperands { s with willComplete := none } := ⟨rfl, rfl, rfl, rfl⟩
  obtain ⟨t, hx⟩ := exec_next i s
  obtain ⟨u, hu⟩ := exec_next i { s with willComplete := none }
  have hutrace : u.trace = s.trace ++ s.eventsOf i := by
    rw [exec_trace_of_live hlive hu, hsame.eventsOf]
  have hlength : u.trace.length = s.trace.length + (s.eventsOf i).length := by rw [hutrace, List.length_append]
  have hcut : State.CutAt (s.trace.length + k) u t := exec_cutAt hlive (Nat.le_add_right _ k) hu (hallow ▸ hx)
  refine ⟨t, hx, ?_⟩
  cases hcut with
  | completes hn ht =>
    rw [if_neg (by omega)]
    have hphase : u.phase = s.phase := (exec_phase hu).resolve_right (exec_keeps_live hlive hu).2
    have hleft : s.trace.length + k - u.trace.length = k - (s.eventsOf i).length := by omega
    exact ⟨u, hu, hutrace, hphase, by rw [ht, State.allow, hleft]⟩
  | hangs hn hp hw htr =>
    rw [if_pos (by omega)]
    obtain ⟨hcfg, hrom, hinputs, hdone⟩ := exec_keeps_environment hx
    obtain ⟨hcol, hrow⟩ := exec_keeps_offsets_of_waiting hs hx hp
    obtain ⟨hxo, hyo, hlife, hinit, hother⟩ := exec_latched_of_waiting hx hp
    have htrace : t.trace = s.trace ++ (s.eventsOf i).take (k + 1) := by
      rw [htr, hutrace, Nat.add_assoc, List.take_length_add_append]
    refine ⟨htrace, hp, hw, hcol, hrow, hxo, hyo, hlife, ?_, hcfg, hrom, hinputs, hdone⟩
    split
    next freq => exact hinit freq rfl
    next hne => exact hother hne

end Sys2Proof.Machine
end

section
/-! SUPPORT. Nothing is raised, reset wins over a running operation, and the bus traffic of a bring-up inside the contract
(spec/60_exceptions.md R180, R185, R186, R188). -/

namespace Sys2Proof.Machine

/-! ### Nothing is raised, and what reset ends -/

/-- Settles O35: no instruction (`exec_next`) and no phase of the block (`step_next`) has a path to a fault or a refusal. -/
theorem nothingFaultsOrIsRefused : Obligations.NothingFaultsOrIsRefused := ⟨exec_next, step_next⟩

/-- Settles O2: a busy block with an asserted `rst` steps to `State.afterReset`, in every phase (`step_of_busy_rst`). -/
theorem resetEndsARunningOperation : Obligations.ResetEndsARunningOperation := by
  intro s hp hr
  exact ⟨_, step_of_busy_rst hp hr, by simp⟩

/-! ### Windows inside the caller's contract -/

/-- The sum of a coordinate and a signed offset modulo 65536 (41_host_operations.md R137). -/
theorem windowStart_toNat (coord : U16) (offset : S16) :
    ((windowStart coord offset).toNat : Int) = (coord.toNat + offset.toInt) % 65536 := by
  rw [windowStart, BitVec.toNat_add, BitVec.toInt_eq_toNat_cond]
  split <;> omega

/-- Inside the contract the first coordinate is the plain integer sum (70_reset_and_hazards.md R207). -/
theorem windowStart_of_fits {offset : S16} {coord size : U16} (h : WindowFits offset coord size) :
    ((windowStart coord offset).toNat : Int) = coord.toNat + offset.toInt := by
  obtain ⟨hsize, hlow, hhigh⟩ := h
  rw [windowStart_toNat]
  exact Int.emod_eq_of_lt hlow (by omega)

/-- Inside the contract the last coordinate is the plain integer one too (70_reset_and_hazards.md R207). -/
theorem windowEnd_of_fits {offset : S16} {coord size : U16} (h : WindowFits offset coord size) :
    (windowEnd (windowStart coord offset) size).toNat = (windowStart coord offset).toNat + size.toNat - 1 := by
  have hstart := windowStart_of_fits h
  obtain ⟨hsize, hlow, hhigh⟩ := h
  rw [windowEnd_toNat]
  omega

/-- The argument bytes of a window inside the contract: those of the plain integer coordinates. -/
theorem windowArgs_of_fits {offset : S16} {coord size : U16} (h : WindowFits offset coord size) :
    windowArgs (windowStart coord offset) (windowEnd (windowStart coord offset) size) =
      bytesOf16 ((coord.toNat : Int) + offset.toInt).toNat ++
        bytesOf16 (((coord.toNat : Int) + offset.toInt).toNat + size.toNat - 1) := by
  rw [windowArgs_eq, windowEnd_of_fits h, ← windowStart_of_fits h, Int.toNat_natCast]

/-! ### The traffic of a bring-up -/

/-- The events of `INIT` over well-formed tables carry the records their author meant (20_memory.md R68). -/
theorem State.initEvents_of_wellFormed {s : State} {rs₁ rs₂ : List Record}
    (h₁ : s.WellFormedTable s.cfg.table1Base rs₁) (h₂ : s.WellFormedTable s.cfg.table2Base rs₂) (freq : U32) :
    s.initEvents freq =
      [.cfg (clockFor s.cfg freq) s.cfg.transferMode] ++ rs₁.flatMap Record.events ++ rs₂.flatMap Record.events ++
        [.txn s.cfg.opcMadctl [s.cfg.madctlValue]] := by
  rw [State.initEvents, h₁.tableAt, h₂.tableAt]
  rfl

/-- Two instructions in turn, the first no `SET_OFFSETS`: the events of both, as the first state has them. -/
theorem exec_exec_trace_of_live {i j : Instr} {s t u : State} (h : s.Live) (hi : s.afterOffsets i = s)
    (ht : exec i s = .next t) (hu : exec j t = .next u) :
    u.trace = s.trace ++ (s.eventsOf i ++ s.eventsOf j) := by
  have hsame : s.SameOperands t := hi ▸ exec_sameOperands ht
  rw [exec_trace_of_live (exec_keeps_live h ht) hu, exec_trace_of_live h ht, hsame.eventsOf, List.append_assoc]

/-- Settles O50: the events of `INIT` over the two tables (`State.initEvents_of_wellFormed`), then those of the window, its
coordinates plain integers inside the contract (`windowArgs_of_fits`). -/
theorem bringUpTrafficIsExact : Obligations.BringUpTrafficIsExact := by
  intro s rs₁ rs₂ freq x y w h hl h₁ h₂ hx hy
  obtain ⟨t, ht⟩ := exec_next (.init freq) s
  obtain ⟨u, hu⟩ := exec_next (.setWindow x y w h) t
  refine ⟨t, u, ht, hu, ?_⟩
  rw [exec_exec_trace_of_live hl rfl ht hu]
  simp only [State.eventsOf, State.initEvents_of_wellFormed h₁ h₂, windowArgs_of_fits hx, windowArgs_of_fits hy, clockFor,
    List.append_assoc, List.cons_append, List.nil_append]

end Sys2Proof.Machine
end

section
/-! SUPPORT. An idle block at reset and at rest, the window arithmetic inside the caller's contract, and the bounds on the
events of an operation (spec/70_reset_and_hazards.md R200, R201, R207, R211). -/

namespace Sys2Proof

/-- A record is a transaction and at most one delay (40_table_records.md R110). -/
theorem Record.events_length_le (r : Record) : r.events.length ≤ 2 := by
  rcases r with ⟨op, args, _ | ms⟩ <;> simp [Record.events]

end Sys2Proof

namespace Sys2Proof.Machine

/-! ### How many events an operation emits -/

theorem tableEvents_length_le (rs : List Record) : (tableEvents rs).length ≤ rs.length * 2 := by
  rw [tableEvents, List.length_flatMap, ← smul_eq_mul, ← List.length_map fun r : Record => r.events.length]
  refine List.sum_le_card_nsmul _ _ fun n hn => ?_
  obtain ⟨r, -, rfl⟩ := List.mem_map.mp hn
  exact r.events_length_le

/-- The header byte counts the records of a table, so a table has at most 255 of them and emits at most 510 events. -/
theorem State.tableAt_events_length_le (s : State) (base : Nat) : (tableEvents (s.tableAt base)).length ≤ 510 := by
  obtain ⟨hcount, -⟩ := tableSizeIsBounded s base
  have hbyte := (s.memRead (base % 2 ^ s.cfg.addrW)).isLt
  have hevents := tableEvents_length_le (s.tableAt base)
  omega

/-- `INIT` emits its bus configuration, the events of two tables, and the orientation command (41_host_operations.md
R131). -/
theorem State.initEvents_length_bounds (s : State) (freq : U32) :
    2 ≤ (s.initEvents freq).length ∧ (s.initEvents freq).length ≤ 1022 := by
  have hfirst := s.tableAt_events_length_le s.cfg.table1Base
  have hsecond := s.tableAt_events_length_le s.cfg.table2Base
  simp only [State.initEvents, List.length_append, List.length_singleton]
  omega

/-- Settles O46: the events are those of the instruction's rule (`exec_trace_of_live`); each rule lists them, but for
`INIT`, whose tables bound them (`State.initEvents_length_bounds`). -/
theorem eventsOfAnOperationAreBounded : Obligations.EventsOfAnOperationAreBounded := by
  intro i s t hl hx
  refine ⟨s.eventsOf i, exec_trace_of_live hl hx, ?silent, ?toggle, ?window, ?init⟩
  case silent => rintro (⟨c, r, rfl⟩ | rfl | rfl | rfl) <;> rfl
  case toggle => rintro en (rfl | rfl) <;> rfl
  case window => rintro x y w h rfl; rfl
  case init => rintro freq rfl; exact s.initEvents_length_bounds freq

/-! ### An idle block -/

/-- An idle block takes the `rst` that is presented next (70_reset_and_hazards.md R200). -/
theorem step_of_idle_rst {s : State} {rest : List Input} (hp : s.phase = .idle) (hin : s.inputs = .rst :: rest) :
    step s = .next (s.clearDone.afterReset rest) := by
  rw [step_of_idle hp, State.stepIdle]
  simp only [State.clearDone_inputs, hin]

/-- Settles O1: the step is `State.afterReset` (`step_of_idle_rst`), whose fields are the values of R200. -/
theorem resetRestoresTheConstructedDriver : Obligations.ResetRestoresTheConstructedDriver := by
  intro s rest hp hin
  exact ⟨_, step_of_idle_rst hp hin, by simp⟩

/-- An idle block to which nothing is presented waits (70_reset_and_hazards.md R201). -/
theorem step_of_idle_nil {s : State} (hp : s.phase = .idle) (hin : s.inputs = []) : step s = .next s.clearDone := by
  rw [step_of_idle hp, State.stepIdle]
  simp only [State.clearDone_inputs, hin]

/-- Settles O32: with nothing presented, the step of an idle block only clears the completion signal
(`step_of_idle_nil`). -/
theorem idleBlockWaitsForARequest : Obligations.IdleBlockWaitsForARequest := fun _ hp hin => step_of_idle_nil hp hin

/-! ### Windows inside the caller's contract -/

/-- Settles O12: the first coordinate does not wrap (`windowStart_of_fits`), and neither does the last
(`windowEnd_of_fits`); with a size of at least 1 its subtraction of natural numbers is that of integers. -/
theorem windowInsideContractDoesNotWrap : Obligations.WindowInsideContractDoesNotWrap := by
  intro coord size offset h
  have hstart := windowStart_of_fits h
  have hend := windowEnd_of_fits h
  obtain ⟨hsize, -, -⟩ := h
  exact ⟨hstart, by omega⟩

end Sys2Proof.Machine
end
